-- ==== Sys2Proof/Word.lean ====
section
/-!
DEFINITION. The machine word, the byte, and the two byte orders a word can be stored in.
Everything a later repair might have to change (extensions, address arithmetic, word assembly) stands in Machine/.
-/

namespace Sys2Proof

/-- A 32-bit value: a register, the PC, HI, LO, an address or an instruction word (R8 XLEN, R10). -/
abbrev Word := BitVec 32

/-- The smallest addressable unit of memory (R47). -/
abbrev Byte := BitVec 8

/-- The choices of parameter BYTE_ORDER (R9, R60). -/
inductive ByteOrder where
  | little
  | big
  deriving DecidableEq, Repr

end Sys2Proof
end

