-- ==== Sys2Proof/Syntax.lean ====
section
/-!
DEFINITION. The instructions: one constructor per row of spec/opcode_table.json, on decoded fields (R91).
A field the instruction ignores (R108) is no argument of its constructor.
-/

namespace Sys2Proof

/-- A register number: a 5-bit field, so always 0..31 (R97). -/
abbrev RegIndex := BitVec 5

/-- The 35 instructions. Operands stand in the assembler's order (R113); `imm` is the raw 16-bit field,
`target` the raw 26-bit field, `shamt` the shift amount as a number (R102; WellFormed holds its bound). -/
inductive Instr where
  | sll (rd rt : RegIndex) (shamt : Nat)
  | srl (rd rt : RegIndex) (shamt : Nat)
  | jr (rs : RegIndex)
  | mfhi (rd : RegIndex)
  | mflo (rd : RegIndex)
  | mul (rs rt : RegIndex)
  | div (rs rt : RegIndex)
  | add (rd rs rt : RegIndex)
  | sub (rd rs rt : RegIndex)
  | and (rd rs rt : RegIndex)
  | or (rd rs rt : RegIndex)
  | xor (rd rs rt : RegIndex)
  | nor (rd rs rt : RegIndex)
  | addi (rt rs : RegIndex) (imm : BitVec 16)
  | andi (rt rs : RegIndex) (imm : BitVec 16)
  | ori (rt rs : RegIndex) (imm : BitVec 16)
  | xori (rt rs : RegIndex) (imm : BitVec 16)
  | beq (rs rt : RegIndex) (imm : BitVec 16)
  | bne (rs rt : RegIndex) (imm : BitVec 16)
  | blez (rs : RegIndex) (imm : BitVec 16)
  | bgtz (rs : RegIndex) (imm : BitVec 16)
  | bltz (rs : RegIndex) (imm : BitVec 16)
  | bgez (rs : RegIndex) (imm : BitVec 16)
  | lw (rt rs : RegIndex) (imm : BitVec 16)
  | lbu (rt rs : RegIndex) (imm : BitVec 16)
  | sb (rt rs : RegIndex) (imm : BitVec 16)
  | sw (rt rs : RegIndex) (imm : BitVec 16)
  | jmp (target : BitVec 26)
  | jal (target : BitVec 26)
  | pstr
  | exit
  | pch
  | rch
  | stra
  | notr
  deriving DecidableEq, Repr

/-- The two kinds of illegal word the decoder tells apart (R107, R111). -/
inductive IllegalKind where
  /-- An unlisted primary opcode, function code or opcode-1 sub-code (R243). -/
  | illegalInstruction
  /-- A syscall word with an unlisted code (R244). -/
  | illegalSyscall
  deriving DecidableEq, Repr

end Sys2Proof
end

