-- ==== Sys2Proof/WellFormed.lean ====
section
/-!
DEFINITION. Which terms of `Instr` the encoding can express.
Registers, immediates and jump targets have exactly their field's width as their type (R97, R93, R94), so no term can
hold a value out of range there; the one number that is not bounded by its type is the shift amount (R102).
-/

namespace Sys2Proof

/-- The shift amount fits its 5-bit field: "a shift by 32 or more cannot be encoded" (R102). -/
def shamtFits (shamt : Nat) : Bool := decide (shamt < 32)

/-- An instruction that some word stands for. -/
def Instr.wellFormed : Instr → Bool
  | .sll _ _ shamt => shamtFits shamt
  | .srl _ _ shamt => shamtFits shamt
  | .jr _ => true
  | .mfhi _ => true
  | .mflo _ => true
  | .mul _ _ => true
  | .div _ _ => true
  | .add _ _ _ => true
  | .sub _ _ _ => true
  | .and _ _ _ => true
  | .or _ _ _ => true
  | .xor _ _ _ => true
  | .nor _ _ _ => true
  | .addi _ _ _ => true
  | .andi _ _ _ => true
  | .ori _ _ _ => true
  | .xori _ _ _ => true
  | .beq _ _ _ => true
  | .bne _ _ _ => true
  | .blez _ _ => true
  | .bgtz _ _ => true
  | .bltz _ _ => true
  | .bgez _ _ => true
  | .lw _ _ _ => true
  | .lbu _ _ _ => true
  | .sb _ _ _ => true
  | .sw _ _ _ => true
  | .jmp _ => true
  | .jal _ => true
  | .pstr => true
  | .exit => true
  | .pch => true
  | .rch => true
  | .stra => true
  | .notr => true

end Sys2Proof
end

