-- ==== Sys2Proof/Decode.lean ====
section
/-!
DEFINITION. The decoder and the encoder (30_encoding.md), both taking the numeric assignment OPCODE_MAP as an argument
(R9), and the opcode table's rows as masks and patterns.
-/

namespace Sys2Proof

/-! ### Fields of an instruction word (R92 to R95) -/

/-- w[31:26] -/
def fieldOp (w : Word) : BitVec 6 := w.extractLsb' 26 6
/-- w[25:21] -/
def fieldRs (w : Word) : RegIndex := w.extractLsb' 21 5
/-- w[20:16] -/
def fieldRt (w : Word) : RegIndex := w.extractLsb' 16 5
/-- w[15:11] -/
def fieldRd (w : Word) : RegIndex := w.extractLsb' 11 5
/-- w[10:6] -/
def fieldShamt (w : Word) : BitVec 5 := w.extractLsb' 6 5
/-- w[5:0] -/
def fieldFunct (w : Word) : BitVec 6 := w.extractLsb' 0 6
/-- w[15:0] -/
def fieldImm (w : Word) : BitVec 16 := w.extractLsb' 0 16
/-- w[25:0] -/
def fieldTarget (w : Word) : BitVec 26 := w.extractLsb' 0 26
/-- w[25:6] -/
def fieldCode (w : Word) : BitVec 20 := w.extractLsb' 6 20

/-! ### The numeric assignment (R103 to R106) -/

/-- Parameter OPCODE_MAP (R9): a number for each primary opcode, function code, REGIMM sub-code and syscall code. -/
structure OpcodeMap where
  (special regimm jmp jal beq bne blez bgtz : BitVec 6)
  (addi andi ori xori lw lbu sb sw : BitVec 6)
  (sll srl jr syscall mfhi mflo mul div : BitVec 6)
  (add sub and or xor nor : BitVec 6)
  (bltz bgez : BitVec 5)
  (pstr exit pch rch stra notr : BitVec 20)
  deriving DecidableEq, Repr

/-- The default assignment: R103 (primary opcodes), R104 (function codes), R105 (REGIMM), R106 (syscall codes).
UNVERIFIED against the reference's object files (log entry 1). -/
def opcodeMap : OpcodeMap where
  special := 0
  regimm := 1
  jmp := 2
  jal := 3
  beq := 4
  bne := 5
  blez := 6
  bgtz := 7
  addi := 9
  andi := 12
  ori := 13
  xori := 14
  lw := 35
  lbu := 36
  sb := 40
  sw := 43
  sll := 0
  srl := 2
  jr := 8
  syscall := 12
  mfhi := 16
  mflo := 18
  mul := 24
  div := 26
  add := 33
  sub := 35
  and := 36
  or := 37
  xor := 38
  nor := 39
  bltz := 0
  bgez := 1
  pstr := 4
  exit := 10
  pch := 11
  rch := 12
  stra := 2046
  notr := 2047

/-- The primary opcodes of a map. -/
def OpcodeMap.primaries (m : OpcodeMap) : List (BitVec 6) :=
  [m.special, m.regimm, m.jmp, m.jal, m.beq, m.bne, m.blez, m.bgtz,
   m.addi, m.andi, m.ori, m.xori, m.lw, m.lbu, m.sb, m.sw]

/-- The function codes of a map. -/
def OpcodeMap.functs (m : OpcodeMap) : List (BitVec 6) :=
  [m.sll, m.srl, m.jr, m.syscall, m.mfhi, m.mflo, m.mul, m.div,
   m.add, m.sub, m.and, m.or, m.xor, m.nor]

/-- The syscall codes of a map. -/
def OpcodeMap.codes (m : OpcodeMap) : List (BitVec 20) :=
  [m.pstr, m.exit, m.pch, m.rch, m.stra, m.notr]

/-- No number of the map is used twice where it would select two instructions. -/
abbrev OpcodeMap.Distinct (m : OpcodeMap) : Prop :=
  m.primaries.Nodup ∧ m.functs.Nodup ∧ m.bltz ≠ m.bgez ∧ m.codes.Nodup

/-! ### Format selection (R91, R96) -/

/-- The four tagged formats the decoder classifies a word into. -/
inductive Format where
  | registerOp
  | immediateOp
  | jumpOp
  | syscallOp
  deriving DecidableEq, Repr

/-- R96, in its order. -/
def classify (m : OpcodeMap) (w : Word) : Format :=
  if fieldOp w = m.special then
    if fieldFunct w = m.syscall then .syscallOp else .registerOp
  else if fieldOp w = m.jmp ∨ fieldOp w = m.jal then .jumpOp
  else .immediateOp

/-! ### The decoder (R111) -/

/-- The instruction a table lists for a code; a code that is not listed is an illegal word of the given kind (R107). -/
def select {n : Nat} (kind : IllegalKind) (code : BitVec n) : List (BitVec n × Instr) → Except IllegalKind Instr
  | [] => .error kind
  | (c, i) :: rows => if code = c then .ok i else select kind code rows

/-- SyscallOp words by code, which is all of w[25:6] (R95, R106). -/
def syscallTable (m : OpcodeMap) : List (BitVec 20 × Instr) :=
  [(m.pstr, .pstr), (m.exit, .exit), (m.pch, .pch), (m.rch, .rch), (m.stra, .stra), (m.notr, .notr)]

/-- RegisterOp words by function code (R92, R104). -/
def registerTable (m : OpcodeMap) (w : Word) : List (BitVec 6 × Instr) :=
  let rs := fieldRs w
  let rt := fieldRt w
  let rd := fieldRd w
  let shamt := (fieldShamt w).toNat
  [(m.sll, .sll rd rt shamt), (m.srl, .srl rd rt shamt), (m.jr, .jr rs), (m.mfhi, .mfhi rd), (m.mflo, .mflo rd),
   (m.mul, .mul rs rt), (m.div, .div rs rt), (m.add, .add rd rs rt), (m.sub, .sub rd rs rt),
   (m.and, .and rd rs rt), (m.or, .or rd rs rt), (m.xor, .xor rd rs rt), (m.nor, .nor rd rs rt)]

/-- JumpOp words by primary opcode (R94, R103). -/
def jumpTable (m : OpcodeMap) (w : Word) : List (BitVec 6 × Instr) :=
  [(m.jmp, .jmp (fieldTarget w)), (m.jal, .jal (fieldTarget w))]

/-- Opcode-1 words by their rt field (R105). -/
def regimmTable (m : OpcodeMap) (w : Word) : List (BitVec 5 × Instr) :=
  [(m.bltz, .bltz (fieldRs w) (fieldImm w)), (m.bgez, .bgez (fieldRs w) (fieldImm w))]

/-- The other ImmediateOp words by primary opcode (R93, R103). -/
def immediateTable (m : OpcodeMap) (w : Word) : List (BitVec 6 × Instr) :=
  let rs := fieldRs w
  let rt := fieldRt w
  let imm := fieldImm w
  [(m.beq, .beq rs rt imm), (m.bne, .bne rs rt imm), (m.blez, .blez rs imm), (m.bgtz, .bgtz rs imm),
   (m.addi, .addi rt rs imm), (m.andi, .andi rt rs imm), (m.ori, .ori rt rs imm), (m.xori, .xori rt rs imm),
   (m.lw, .lw rt rs imm), (m.lbu, .lbu rt rs imm), (m.sb, .sb rt rs imm), (m.sw, .sw rt rs imm)]

/-- The decoder under a numeric assignment: total on every word, refusing by kind (R111). -/
def decodeWith (m : OpcodeMap) (w : Word) : Except IllegalKind Instr :=
  match classify m w with
  | .syscallOp => select .illegalSyscall (fieldCode w) (syscallTable m)
  | .registerOp => select .illegalInstruction (fieldFunct w) (registerTable m w)
  | .jumpOp => select .illegalInstruction (fieldOp w) (jumpTable m w)
  | .immediateOp =>
    if fieldOp w = m.regimm then select .illegalInstruction (fieldRt w) (regimmTable m w)
    else select .illegalInstruction (fieldOp w) (immediateTable m w)

/-- The decoder under the default assignment. -/
def decode (w : Word) : Except IllegalKind Instr := decodeWith opcodeMap w

/-- The decoder's answer for a word whose bits are numbered as spec/opcode_table.json numbers them. Every instruction is
one 32-bit word (R90), so bits above `nbits` are 0 and bits above 31 do not exist. -/
def decodeTableWord (nbits w : Nat) : Option Instr :=
  match decode (BitVec.ofNat 32 (w % 2 ^ nbits)) with
  | .ok i => some i
  | .error _ => none

/-! ### The encoder (R92 to R95, R116: an ignored field is written 0) -/

/-- A RegisterOp word (R92). -/
def wordR (m : OpcodeMap) (funct : BitVec 6) (rs rt rd shamt : BitVec 5) : Word :=
  m.special ++ rs ++ rt ++ rd ++ shamt ++ funct

/-- An ImmediateOp word (R93). -/
def wordI (op : BitVec 6) (rs rt : BitVec 5) (imm : BitVec 16) : Word := op ++ rs ++ rt ++ imm

/-- A JumpOp word (R94). -/
def wordJ (op : BitVec 6) (target : BitVec 26) : Word := op ++ target

/-- A SyscallOp word (R95). -/
def wordS (m : OpcodeMap) (code : BitVec 20) : Word := m.special ++ code ++ m.syscall

/-- The word of an instruction under a numeric assignment. -/
def encodeWith (m : OpcodeMap) : Instr → Word
  | .sll rd rt shamt => wordR m m.sll 0 rt rd (BitVec.ofNat 5 shamt)
  | .srl rd rt shamt => wordR m m.srl 0 rt rd (BitVec.ofNat 5 shamt)
  | .jr rs => wordR m m.jr rs 0 0 0
  | .mfhi rd => wordR m m.mfhi 0 0 rd 0
  | .mflo rd => wordR m m.mflo 0 0 rd 0
  | .mul rs rt => wordR m m.mul rs rt 0 0
  | .div rs rt => wordR m m.div rs rt 0 0
  | .add rd rs rt => wordR m m.add rs rt rd 0
  | .sub rd rs rt => wordR m m.sub rs rt rd 0
  | .and rd rs rt => wordR m m.and rs rt rd 0
  | .or rd rs rt => wordR m m.or rs rt rd 0
  | .xor rd rs rt => wordR m m.xor rs rt rd 0
  | .nor rd rs rt => wordR m m.nor rs rt rd 0
  | .addi rt rs imm => wordI m.addi rs rt imm
  | .andi rt rs imm => wordI m.andi rs rt imm
  | .ori rt rs imm => wordI m.ori rs rt imm
  | .xori rt rs imm => wordI m.xori rs rt imm
  | .beq rs rt imm => wordI m.beq rs rt imm
  | .bne rs rt imm => wordI m.bne rs rt imm
  | .blez rs imm => wordI m.blez rs 0 imm
  | .bgtz rs imm => wordI m.bgtz rs 0 imm
  | .bltz rs imm => wordI m.regimm rs m.bltz imm
  | .bgez rs imm => wordI m.regimm rs m.bgez imm
  | .lw rt rs imm => wordI m.lw rs rt imm
  | .lbu rt rs imm => wordI m.lbu rs rt imm
  | .sb rt rs imm => wordI m.sb rs rt imm
  | .sw rt rs imm => wordI m.sw rs rt imm
  | .jmp target => wordJ m.jmp target
  | .jal target => wordJ m.jal target
  | .pstr => wordS m m.pstr
  | .exit => wordS m m.exit
  | .pch => wordS m m.pch
  | .rch => wordS m m.rch
  | .stra => wordS m m.stra
  | .notr => wordS m m.notr

/-- The word of an instruction under the default assignment. -/
def encode (i : Instr) : Word := encodeWith opcodeMap i

/-! ### The opcode table and the ignored fields -/

/-- One row of spec/opcode_table.json: a word is of this row when its bits under `mask` are `pattern`. -/
structure TableRow where
  mnemonic : String
  mask : Word
  pattern : Word
  deriving DecidableEq, Repr

/-- The word is of the row. -/
def TableRow.matchesWord (r : TableRow) (w : Word) : Bool := w &&& r.mask == r.pattern

/-- The R-format rows of spec/opcode_table.json. -/
def tableRowsR : List TableRow :=
  [⟨"sll", 0xFC00003F, 0x00000000⟩, ⟨"srl", 0xFC00003F, 0x00000002⟩, ⟨"jr", 0xFC00003F, 0x00000008⟩,
   ⟨"mfhi", 0xFC00003F, 0x00000010⟩, ⟨"mflo", 0xFC00003F, 0x00000012⟩, ⟨"mul", 0xFC00003F, 0x00000018⟩,
   ⟨"div", 0xFC00003F, 0x0000001A⟩, ⟨"add", 0xFC00003F, 0x00000021⟩, ⟨"sub", 0xFC00003F, 0x00000023⟩,
   ⟨"and", 0xFC00003F, 0x00000024⟩, ⟨"or", 0xFC00003F, 0x00000025⟩, ⟨"xor", 0xFC00003F, 0x00000026⟩,
   ⟨"nor", 0xFC00003F, 0x00000027⟩]

/-- The I-format rows. -/
def tableRowsI : List TableRow :=
  [⟨"addi", 0xFC000000, 0x24000000⟩, ⟨"andi", 0xFC000000, 0x30000000⟩, ⟨"ori", 0xFC000000, 0x34000000⟩,
   ⟨"xori", 0xFC000000, 0x38000000⟩, ⟨"beq", 0xFC000000, 0x10000000⟩, ⟨"bne", 0xFC000000, 0x14000000⟩,
   ⟨"blez", 0xFC000000, 0x18000000⟩, ⟨"bgtz", 0xFC000000, 0x1C000000⟩, ⟨"bltz", 0xFC1F0000, 0x04000000⟩,
   ⟨"bgez", 0xFC1F0000, 0x04010000⟩, ⟨"lw", 0xFC000000, 0x8C000000⟩, ⟨"lbu", 0xFC000000, 0x90000000⟩,
   ⟨"sb", 0xFC000000, 0xA0000000⟩, ⟨"sw", 0xFC000000, 0xAC000000⟩]

/-- The J-format and syscall rows. -/
def tableRowsJS : List TableRow :=
  [⟨"jmp", 0xFC000000, 0x08000000⟩, ⟨"jal", 0xFC000000, 0x0C000000⟩,
   ⟨"pstr", 0xFFFFFFFF, 0x0000010C⟩, ⟨"exit", 0xFFFFFFFF, 0x0000028C⟩, ⟨"pch", 0xFFFFFFFF, 0x000002CC⟩,
   ⟨"rch", 0xFFFFFFFF, 0x0000030C⟩, ⟨"stra", 0xFFFFFFFF, 0x0001FF8C⟩, ⟨"notr", 0xFFFFFFFF, 0x0001FFCC⟩]

/-- The 35 rows of spec/opcode_table.json. -/
def opcodeTable : List TableRow := tableRowsR ++ tableRowsI ++ tableRowsJS

/-- The table's mnemonic of an instruction. -/
def Instr.mnemonic : Instr → String
  | .sll _ _ _ => "sll"
  | .srl _ _ _ => "srl"
  | .jr _ => "jr"
  | .mfhi _ => "mfhi"
  | .mflo _ => "mflo"
  | .mul _ _ => "mul"
  | .div _ _ => "div"
  | .add _ _ _ => "add"
  | .sub _ _ _ => "sub"
  | .and _ _ _ => "and"
  | .or _ _ _ => "or"
  | .xor _ _ _ => "xor"
  | .nor _ _ _ => "nor"
  | .addi _ _ _ => "addi"
  | .andi _ _ _ => "andi"
  | .ori _ _ _ => "ori"
  | .xori _ _ _ => "xori"
  | .beq _ _ _ => "beq"
  | .bne _ _ _ => "bne"
  | .blez _ _ => "blez"
  | .bgtz _ _ => "bgtz"
  | .bltz _ _ => "bltz"
  | .bgez _ _ => "bgez"
  | .lw _ _ _ => "lw"
  | .lbu _ _ _ => "lbu"
  | .sb _ _ _ => "sb"
  | .sw _ _ _ => "sw"
  | .jmp _ => "jmp"
  | .jal _ => "jal"
  | .pstr => "pstr"
  | .exit => "exit"
  | .pch => "pch"
  | .rch => "rch"
  | .stra => "stra"
  | .notr => "notr"

/-- The bits of its word an instruction does not ignore, by the table of ignored fields (R108): shamt is w[10:6],
rd w[15:11], rt w[20:16], rs w[25:21]. -/
def Instr.usedBits : Instr → Word
  | .sll _ _ _ => 0xFC1FFFFF
  | .srl _ _ _ => 0xFC1FFFFF
  | .jr _ => 0xFFE0003F
  | .mfhi _ => 0xFC00F83F
  | .mflo _ => 0xFC00F83F
  | .mul _ _ => 0xFFFF003F
  | .div _ _ => 0xFFFF003F
  | .add _ _ _ => 0xFFFFF83F
  | .sub _ _ _ => 0xFFFFF83F
  | .and _ _ _ => 0xFFFFF83F
  | .or _ _ _ => 0xFFFFF83F
  | .xor _ _ _ => 0xFFFFF83F
  | .nor _ _ _ => 0xFFFFF83F
  | .addi _ _ _ => 0xFFFFFFFF
  | .andi _ _ _ => 0xFFFFFFFF
  | .ori _ _ _ => 0xFFFFFFFF
  | .xori _ _ _ => 0xFFFFFFFF
  | .beq _ _ _ => 0xFFFFFFFF
  | .bne _ _ _ => 0xFFFFFFFF
  | .blez _ _ => 0xFFE0FFFF
  | .bgtz _ _ => 0xFFE0FFFF
  | .bltz _ _ => 0xFFFFFFFF
  | .bgez _ _ => 0xFFFFFFFF
  | .lw _ _ _ => 0xFFFFFFFF
  | .lbu _ _ _ => 0xFFFFFFFF
  | .sb _ _ _ => 0xFFFFFFFF
  | .sw _ _ _ => 0xFFFFFFFF
  | .jmp _ => 0xFFFFFFFF
  | .jal _ => 0xFFFFFFFF
  | .pstr => 0xFFFFFFFF
  | .exit => 0xFFFFFFFF
  | .pch => 0xFFFFFFFF
  | .rch => 0xFFFFFFFF
  | .stra => 0xFFFFFFFF
  | .notr => 0xFFFFFFFF

end Sys2Proof
end

