-- ==== Sys2Proof/Machine/Params.lean ====
section
/-!
DEFINITION. The machine's numbers: the fixed ones (R8) and the defaults of the parameters BYTE_ORDER and REG_* (R9).
-/

namespace Sys2Proof.Machine

/-- MEM_BYTES = 65536 - 4: addresses 0 to 65531 are memory (R8, R47). -/
def memBytes : Nat := 65532

/-- WORD_BYTES (R8). -/
def wordBytes : Nat := 4

/-- BYTE_ORDER, the default (R9, R60). UNVERIFIED against the reference (log entry 2). -/
def byteOrder : ByteOrder := .little

/-- REG_V0, the syscall result register (R33). UNVERIFIED against the reference, as REG_A0, REG_GP, REG_SP and REG_FP
are (log entry 3). -/
def regV0 : RegIndex := 2

/-- REG_A0, the syscall argument register (R33). -/
def regA0 : RegIndex := 4

/-- REG_GP, seeded with the data start (R33, R53). -/
def regGP : RegIndex := 28

/-- REG_SP, seeded with the stack bottom (R33, R53). -/
def regSP : RegIndex := 29

/-- REG_FP, seeded with the stack bottom (R33, R53). -/
def regFP : RegIndex := 30

/-- REG_RA, written by jal (R33). -/
def regRA : RegIndex := 31

end Sys2Proof.Machine
end

