-- ==== Sys2Proof/Machine/Events.lean ====
section
/-!
DEFINITION. The data the core exchanges with the software around it: fault records and the run status (R45, R46, R240,
R255), and the interactions of the host interface (R256).
-/

namespace Sys2Proof.Machine

/-- Memory as plain data: the bytes that differ from what an unlisted address reads as, by rising address. -/
abbrev Memory := List Host.Cell

/-- The eight execution fault causes, with the address causes 7 and 8 record (R240). -/
inductive FaultCause where
  | fetchMisaligned
  | fetchOutOfRange
  | illegalInstruction
  | illegalSyscall
  | divideByZero
  | divideOverflow
  /-- A word access at an address that is no multiple of 4. -/
  | misalignedAccess (ea : Word)
  /-- An access outside memory, with the first address out of range. -/
  | accessOutOfRange (addr : Word)
  deriving DecidableEq, Repr

/-- What a fault leaves for diagnosis: the PC of the faulting instruction, its word if the fetch succeeded, and the
cause (R46). -/
structure FaultRecord where
  pc : Word
  word : Option Word
  cause : FaultCause
  deriving DecidableEq, Repr

/-- The load-time errors L1 to L7 (R255). -/
inductive LoadError where
  | misalignedTextStart
  | textBeyondData
  | misalignedDataStart
  | misalignedStackBottom
  | stackBelowData
  | segmentLengthNotWords
  | segmentOutOfMemory
  deriving DecidableEq, Repr

/-- The run status (R45). -/
inductive RunStatus where
  | loading
  | validating
  | running
  | halted
  | faulted (record : FaultRecord)
  | loadFailed (error : LoadError)
  deriving DecidableEq, Repr

/-- What the core asks the host to write (R256). -/
inductive WriteRequest where
  /-- `WriteBytes(bs)`, sent by pstr. -/
  | writeBytes (bytes : List Byte)
  /-- `WriteByte(b)`, sent by pch. -/
  | writeByte (byte : Byte)
  deriving DecidableEq, Repr

/-- The host's answer to a write: success, or a failure with a 32-bit sentinel of the host's choosing (R223). -/
inductive WriteReply where
  | success
  | failed (sentinel : Word)
  deriving DecidableEq, Repr, Inhabited

/-- The host's answer to `ReadByte`: a byte, or end of input, which also stands for a read error (R223). -/
inductive ReadReply where
  | byte (value : Byte)
  | endOfInput
  deriving DecidableEq, Repr, Inhabited

/-- One completed I/O interaction, with the host's answer. -/
inductive IoEvent where
  | wrote (request : WriteRequest) (reply : WriteReply)
  | read (reply : ReadReply)
  deriving DecidableEq, Repr

/-- What a trace event carries: the state before the instruction and the fetched word (R122, R258). -/
structure Snapshot where
  pc : Word
  hi : Word
  lo : Word
  regs : Vector Word 32
  mem : Memory
  word : Word
  deriving DecidableEq, Repr

/-- One interaction of the host interface (R256). -/
inductive HostEvent where
  | io (event : IoEvent)
  | trace (snapshot : Snapshot)
  /-- `End(outcome)`: the status the run ended in (R257). -/
  | ended (outcome : RunStatus)
  deriving DecidableEq, Repr

end Sys2Proof.Machine
end

