-- ==== Sys2Proof/Config.lean ====
section
/-!
DEFINITION. The free values: what the spec leaves to the host software, as constants without a body.
Nothing in Lean can evaluate them, so a statement about them holds for every host.
The parameters that have a default in the spec (BYTE_ORDER, REG_*, MEM_BYTES) stand in Machine/Params.lean and
OPCODE_MAP in Decode.lean.
-/

namespace Sys2Proof

open Sys2Proof.Machine (IoEvent WriteRequest WriteReply ReadReply LoadError)

/-- Parameter HOST, writes: the answer to a request, given the I/O interactions before it, newest first (R256, D26).
FREE VALUE (log entry 4). -/
opaque Config.hostWrite : List IoEvent → WriteRequest → WriteReply

/-- Parameter HOST, reads: the answer to `ReadByte`, given the I/O interactions before it, newest first (R256, D26); none
where the host never answers (R220, I16). FREE VALUE (log entries 4 and 6). -/
opaque Config.hostRead : List IoEvent → Option ReadReply

/-- One less than parameter FAULT_EXIT_STATUS, which may be any nonzero value (R257, D20). FREE VALUE (log entry 9). -/
opaque Config.faultExitLessOne : Nat

/-- One less than the exit status of a failed load, any nonzero value (R134, R257, I19). FREE VALUE (log entry 9). -/
opaque Config.loadExitLessOne : LoadError → Nat

end Sys2Proof
end

