-- ==== Sys2Proof/Machine/State.lean ====
section
/-!
DEFINITION. The machine's state (R30), the reasons a step can stop, and the state right after reset.
-/

namespace Sys2Proof.Machine

/-- The state tuple of R30 and, as its last field, the model's own record of the host interactions. -/
structure State where
  /-- The byte address of the instruction being executed (R39). -/
  pc : Word
  /-- x[0] to x[31]; x[0] is an ordinary register (R31, R32). -/
  regs : Vector Word 32
  /-- HI (R37). -/
  hi : Word
  /-- LO (R37). -/
  lo : Word
  /-- The memory array, in canonical form (R47; Ops.lean says how it reads). -/
  mem : Memory
  /-- The trace flag (R44). -/
  trace : Bool
  /-- The run status (R45). -/
  status : RunStatus
  /-- The MODEL's own field: the core is inside a rch whose `ReadByte` the host never answers (R220, R256, I16). No step
  leaves it (DESIGN CHOICE, log entry 6). -/
  blocked : Bool
  /-- The MODEL's own field: the host interactions so far, newest first (R256). No rule reads it but the host oracle
  (DESIGN CHOICE, log entry 5). -/
  events : List HostEvent
  deriving DecidableEq, Repr

/-- Why a step stops with no next state. An execution fault of the spec is no such stop: it is a next state, whose
status is `faulted` (R126, R241; log entry 11). -/
inductive Fault where
  /-- Raised by `step` in a state that has no step because the reset procedure has not finished: status Loading or
  Validating (R120). Safe: the spec gives no step there. -/
  | notStarted
  /-- Raised by `step` in a state that has no step because the run has ended: status Halted, Faulted or LoadFailed
  (R45, R120). Safe: the spec gives no step there. -/
  | runEnded
  deriving DecidableEq, Repr

/-- Why an instruction has no meaning in the model. -/
inductive Refusal where
  /-- Raised by an arm of `exec` for an instruction without a meaning. Safe: the model stops. No arm raises it now. -/
  | notModelled (mnemonic : String)
  deriving DecidableEq, Repr

/-- The state when status becomes Running (R53, R274, R275) for a header with text_start 0, data_start 0x400 and
stack_bottom 0x1000 and no words to load: x[28] is the data start, x[29] and x[30] the stack bottom, all else 0.
The header is an input from outside; this one is the spec's own default header (95_test_vectors.md part 3).
DESIGN CHOICE, unsafe: log entry 7. -/
def State.reset : State where
  pc := 0
  regs := (((Vector.replicate 32 0).set 28 0x400).set 29 0x1000).set 30 0x1000
  hi := 0
  lo := 0
  mem := []
  trace := false
  status := .running
  blocked := false
  events := []

end Sys2Proof.Machine
end

