-- ==== Sys2Proof/Machine/Ops.lean ====
section
/-!
DEFINITION. The named operations: registers, the memory interface (R50), the host interface (R256), ending a run,
taking a fault (R241) and committing a step (R125, R127).
-/

namespace Sys2Proof.Machine

/-! ### Registers -/

/-- `x[r]` (R13). -/
def State.reg (s : State) (r : RegIndex) : Word := s.regs[r.toNat]'(r.isLt)

/-- `x[r] <- v`, for every r including 0 (R13, R32). -/
def State.setReg (s : State) (r : RegIndex) (v : Word) : State := { s with regs := s.regs.set r.toNat v r.isLt }

/-- `HI <- hi; LO <- lo`: mul and div write both (R37). -/
def State.setHiLo (s : State) (hi lo : Word) : State := { s with hi := hi, lo := lo }

/-- The memory array replaced. -/
def State.setMem (s : State) (m : Memory) : State := { s with mem := m }

/-- The next PC (R40). -/
def State.setPc (s : State) (a : Word) : State := { s with pc := a }

/-- The trace flag, written by stra and notr alone (R44). -/
def State.setTrace (s : State) (b : Bool) : State := { s with trace := b }

/-- The run status (R45). -/
def State.setStatus (s : State) (st : RunStatus) : State := { s with status := st }

/-- Whether the core is inside a rch the host never answers (R220, I16). -/
def State.setBlocked (s : State) (b : Bool) : State := { s with blocked := b }

/-- One host interaction recorded. -/
def State.report (s : State) (e : HostEvent) : State := { s with events := e :: s.events }

/-! ### Bytes of memory -/

/-- What an address that is not listed reads as: the zero fill (R273). -/
def unlistedByte : Byte := 0

/-- The byte at an address. -/
def Memory.read : Memory → Nat → Byte
  | [], _ => unlistedByte
  | (k, v) :: m, a => if k = a then v else Memory.read m a

/-- A cell put where its address belongs in a rising list. -/
def Memory.insert : Memory → Host.Cell → Memory
  | [], c => [c]
  | d :: m, c => if c.1 < d.1 then c :: d :: m else d :: Memory.insert m c

/-- The byte at an address replaced; the canonical form is kept. -/
def Memory.write (m : Memory) (a : Nat) (b : Byte) : Memory :=
  let rest := m.filter fun c => c.1 != a
  if b = unlistedByte then rest else Memory.insert rest (a, b)

/-- The canonical form: addresses strictly rise, stay inside memory (R47), and no listed byte is what an unlisted
address reads as. -/
abbrev Memory.wf (m : Memory) : Prop :=
  m.Pairwise (fun c d => c.1 < d.1) ∧ ∀ c ∈ m, c.2 ≠ unlistedByte ∧ c.1 < memBytes

/-! ### Words of memory (R60) -/

/-- The word of four bytes, the first from the lowest address. -/
def wordOfBytes : ByteOrder → Byte → Byte → Byte → Byte → Word
  | .little, b0, b1, b2, b3 => b3 ++ b2 ++ b1 ++ b0
  | .big, b0, b1, b2, b3 => b0 ++ b1 ++ b2 ++ b3

/-- The byte of a word that stands at offset k (0 to 3) from the word's address. -/
def byteOfWord : ByteOrder → Word → Nat → Byte
  | .little, v, k => v.extractLsb' (8 * k) 8
  | .big, v, k => v.extractLsb' (8 * (3 - k)) 8

/-- The word at a byte address, whatever its alignment. -/
def Memory.wordAt (m : Memory) (a : Nat) : Word :=
  wordOfBytes byteOrder (m.read a) (m.read (a + 1)) (m.read (a + 2)) (m.read (a + 3))

/-- The four bytes of a word written at a byte address. -/
def Memory.putWord (m : Memory) (a : Nat) (v : Word) : Memory :=
  (((m.write a (byteOfWord byteOrder v 0)).write (a + 1) (byteOfWord byteOrder v 1)).write
    (a + 2) (byteOfWord byteOrder v 2)).write (a + 3) (byteOfWord byteOrder v 3)

/-! ### The memory interface (R50, R63 to R68) -/

/-- R63: `0 ≤ signed(a)` and `signed(a) + n ≤ MEM_BYTES`. -/
def inRange (a : Word) (n : Nat) : Bool := decide (0 ≤ a.toInt ∧ a.toInt + n ≤ memBytes)

/-- The address is a multiple of the word size. -/
def aligned (a : Word) : Bool := a.toNat % wordBytes == 0

/-- `MemRead(a, 1)` (R64). -/
def readByte (m : Memory) (a : Word) : Except FaultCause Byte :=
  if inRange a 1 then .ok (m.read a.toNat) else .error (.accessOutOfRange a)

/-- `MemWrite(a, 1, v)` (R66). -/
def writeByte (m : Memory) (a : Word) (b : Byte) : Except FaultCause Memory :=
  if inRange a 1 then .ok (m.write a.toNat b) else .error (.accessOutOfRange a)

/-- `MemRead(a, 4)` (R65): alignment first, then range. -/
def readWord (m : Memory) (a : Word) : Except FaultCause Word :=
  if aligned a then
    if inRange a wordBytes then .ok (m.wordAt a.toNat) else .error (.accessOutOfRange a)
  else .error (.misalignedAccess a)

/-- `MemWrite(a, 4, v)` (R67): a faulting write writes no byte. -/
def writeWord (m : Memory) (a : Word) (v : Word) : Except FaultCause Memory :=
  if aligned a then
    if inRange a wordBytes then .ok (m.putWord a.toNat v) else .error (.accessOutOfRange a)
  else .error (.misalignedAccess a)

/-- `Fetch(a)` (R68). -/
def fetchWord (m : Memory) (a : Word) : Except FaultCause Word :=
  if aligned a then
    if inRange a wordBytes then .ok (m.wordAt a.toNat) else .error .fetchOutOfRange
  else .error .fetchMisaligned

/-- The byte string from an address up to, and without, its terminating 0 byte (R217). The first argument bounds the
reads; `stringFuel` is never used up, since every read steps to the next address and one out of range stops the scan. -/
def scanString : Nat → Memory → Word → Except FaultCause (List Byte)
  | 0, _, a => .error (.accessOutOfRange a)
  | n + 1, m, a =>
    match readByte m a with
    | .error c => .error c
    | .ok b =>
      if b = 0 then .ok []
      else
        match scanString n m (a + 1) with
        | .error c => .error c
        | .ok bytes => .ok (b :: bytes)

/-- One read for each byte of memory, and one that is out of range. -/
def stringFuel : Nat := memBytes + 1

/-! ### The host interface (R223, R256) -/

/-- The I/O interactions among the events, in the same order. The trace events are left out: tracing has no effect on
any architectural result (R44, R258). -/
def ioHistory : List HostEvent → List IoEvent
  | [] => []
  | .io e :: es => e :: ioHistory es
  | .trace _ :: es => ioHistory es
  | .ended _ :: es => ioHistory es

/-- `HostCall` of a write: the request, its answer and the fact recorded; the answer is `success` or the host's
sentinel, and gives the 32-bit result (R223). -/
def hostWrite (s : State) (q : WriteRequest) (onSuccess : Word) : State × Word :=
  let reply := Config.hostWrite (ioHistory s.events) q
  (s.report (.io (.wrote q reply)),
    match reply with
    | .success => onSuccess
    | .failed sentinel => sentinel)

/-- The end-of-input marker (R223, D17). -/
def endOfInputMarker : Word := 0xFFFFFFFF

/-- `HostCall(ReadByte)`: the host's answer, if it ever gives one (R220, R256). -/
def hostRead (s : State) : Option ReadReply := Config.hostRead (ioHistory s.events)

/-- The result of an answered read: the byte zero-extended, or the end-of-input marker (R220, R223). -/
def readValue : ReadReply → Word
  | .byte b => b.setWidth 32
  | .endOfInput => endOfInputMarker

/-- `Trace(pc, HI, LO, x, mem, w)` of the state before the instruction, if the flag is on (R122). -/
def traceStep (w : Word) (s : State) : State :=
  if s.trace then
    s.report (.trace { pc := s.pc, hi := s.hi, lo := s.lo, regs := s.regs, mem := s.mem, word := w })
  else s

/-! ### The end of a run -/

/-- The status leaves Running, and the outcome is reported once (R257). -/
def endRun (st : RunStatus) (s : State) : State := (s.setStatus st).report (.ended st)

/-- The exit syscall's outcome `Halt`: the PC stays (R126, R250). -/
def halt (s : State) : State := endRun .halted s

/-- The word at the PC, if it can be fetched (R46: "the instruction word if fetch succeeded"). A faulting step has
written nothing, so this is the word the step fetched (log entry 12). -/
def fetchedWord (s : State) : Option Word :=
  match fetchWord s.mem s.pc with
  | .ok w => some w
  | .error _ => none

/-- TAKING A FAULT, `raise F(info)` (R241): no write of the step is committed, the PC stays, and the status becomes
Faulted with the record. There is no handler and no return (R249, R251). -/
def raise (c : FaultCause) (s : State) : State :=
  endRun (.faulted { pc := s.pc, word := fetchedWord s, cause := c }) s

/-- The cause an illegal word is reported with (R243, R244). -/
def illegalCause : IllegalKind → FaultCause
  | .illegalInstruction => .illegalInstruction
  | .illegalSyscall => .illegalSyscall

/-- The numeric code of a cause (R240). -/
def FaultCause.code : FaultCause → Nat
  | .fetchMisaligned => 1
  | .fetchOutOfRange => 2
  | .illegalInstruction => 3
  | .illegalSyscall => 4
  | .divideByZero => 5
  | .divideOverflow => 6
  | .misalignedAccess _ => 7
  | .accessOutOfRange _ => 8

/-- The number n of the load error Ln (R255). -/
def LoadError.code : LoadError → Nat
  | .misalignedTextStart => 1
  | .textBeyondData => 2
  | .misalignedDataStart => 3
  | .misalignedStackBottom => 4
  | .stackBelowData => 5
  | .segmentLengthNotWords => 6
  | .segmentOutOfMemory => 7

/-- The process exit status the host gives for a run's end: 0 for Halted, some nonzero value for a fault or a failed
load; none before the run has ended (R134, R257). -/
def exitStatus : RunStatus → Option Nat
  | .loading => none
  | .validating => none
  | .running => none
  | .halted => some 0
  | .faulted _ => some (Config.faultExitLessOne + 1)
  | .loadFailed e => some (Config.loadExitLessOne e + 1)

/-! ### Committing a step (R124, R125, R127) -/

/-- Outcome `Next`: the PC moves past the instruction (R125). -/
def State.advance (s : State) : State := s.setPc (s.pc + 4)

/-- The step's writes commit together and the PC advances, or the fault is taken from the state before the
instruction (R127). -/
def commit (s : State) : Except FaultCause State → State
  | .ok t => t.advance
  | .error c => raise c s

/-- The answer of an instruction's meaning: every instruction has a next state. -/
abbrev Answer := Host.Outcome State Fault Refusal

end Sys2Proof.Machine
end

