-- ==== Sys2Proof/Machine/Operands.lean ====
section
/-!
DEFINITION. Every operand form: immediates (R98, R99), branch and jump targets (R100, R101, R181), the effective address
(R200), and the widths of bytes (R69).
-/

namespace Sys2Proof.Machine

/-- `sext_16` (R12, R98). -/
def sext16 (imm : BitVec 16) : Word := imm.signExtend 32

/-- `zext_16` (R12, R99). -/
def zext16 (imm : BitVec 16) : Word := imm.setWidth 32

/-- `zext_8` (R12). -/
def zext8 (b : Byte) : Word := b.setWidth 32

/-- v[7:0]: what sb and pch take of a register (R66, R219). -/
def lowByte (v : Word) : Byte := v.extractLsb' 0 8

/-- The branch byte offset: the immediate counts words (R100). -/
def branchOffset (imm : BitVec 16) : Word := sext16 imm <<< 2

/-- The taken-branch target of a branch at `pc` (R181). -/
def branchTarget (pc : Word) (imm : BitVec 16) : Word := pc + 4 + branchOffset imm

/-- The jump target: pc[31:28] ++ target ++ 0b00, pc the jump's own address (R101). -/
def jumpTarget (pc : Word) (target : BitVec 26) : Word := pc.extractLsb' 28 4 ++ target ++ 0#2

/-- The one addressing mode: base register plus sign-extended displacement (R200). -/
def effectiveAddress (s : State) (rs : RegIndex) (imm : BitVec 16) : Word := s.reg rs + sext16 imm

end Sys2Proof.Machine
end

