-- ==== Sys2Proof/Machine/Flags.lean ====
section
/-!
DEFINITION. The core has no flags, condition codes or predicate registers, and no instruction sets one (R43): there is no
flag computation to write. What stands in their place are the comparisons the branches make on registers (R183 to
R188), signed unless they test equality (R11).
-/

namespace Sys2Proof.Machine

/-- beq, bne: bitwise equality (R183, R184). -/
def condEq (a b : Word) : Bool := a == b

/-- bgez: `signed(a) ≥ 0` (R185). -/
def condGez (a : Word) : Bool := decide (0 ≤ a.toInt)

/-- bgtz: `signed(a) > 0` (R186). -/
def condGtz (a : Word) : Bool := decide (0 < a.toInt)

/-- blez: `signed(a) ≤ 0` (R187). -/
def condLez (a : Word) : Bool := decide (a.toInt ≤ 0)

/-- bltz: `signed(a) < 0` (R188). -/
def condLtz (a : Word) : Bool := decide (a.toInt < 0)

end Sys2Proof.Machine
end

