-- ==== Sys2Proof/Machine/ControlTransfer.lean ====
section
/-!
DEFINITION. Control transfer (43_control_transfer.md). There are no delay slots, and no target is checked before the
next fetch (R180).
-/

namespace Sys2Proof.Machine

/-- Outcome `Transfer(t)`: the PC becomes t, with no added 4 (R125). -/
def transferTo (t : Word) (s : State) : Answer := .next (s.setPc t)

/-- A conditional branch: `Transfer(btarget)` if taken, else `Next` (R180, R181). -/
def branchIf (taken : Bool) (imm : BitVec 16) (s : State) : Answer :=
  .next (if taken then s.setPc (branchTarget s.pc imm) else s.advance)

/-- jr (R182). -/
def execJr (rs : RegIndex) (s : State) : Answer := transferTo (s.reg rs) s

/-- beq (R183). -/
def execBeq (rs rt : RegIndex) (imm : BitVec 16) (s : State) : Answer := branchIf (condEq (s.reg rs) (s.reg rt)) imm s

/-- bne (R184). -/
def execBne (rs rt : RegIndex) (imm : BitVec 16) (s : State) : Answer := branchIf (!condEq (s.reg rs) (s.reg rt)) imm s

/-- blez (R187). -/
def execBlez (rs : RegIndex) (imm : BitVec 16) (s : State) : Answer := branchIf (condLez (s.reg rs)) imm s

/-- bgtz (R186). -/
def execBgtz (rs : RegIndex) (imm : BitVec 16) (s : State) : Answer := branchIf (condGtz (s.reg rs)) imm s

/-- bltz (R188). -/
def execBltz (rs : RegIndex) (imm : BitVec 16) (s : State) : Answer := branchIf (condLtz (s.reg rs)) imm s

/-- bgez (R185). -/
def execBgez (rs : RegIndex) (imm : BitVec 16) (s : State) : Answer := branchIf (condGez (s.reg rs)) imm s

/-- jmp (R189). -/
def execJmp (target : BitVec 26) (s : State) : Answer := transferTo (jumpTarget s.pc target) s

/-- jal: the link is pc + 4, and the target is jmp's (R190). -/
def execJal (target : BitVec 26) (s : State) : Answer :=
  transferTo (jumpTarget s.pc target) (s.setReg regRA (s.pc + 4))

end Sys2Proof.Machine
end

