-- ==== Sys2Proof/Machine/RegisterAlu.lean ====
section
/-!
DEFINITION. The register-format ALU family (41_register_alu.md).
-/

namespace Sys2Proof.Machine

/-- An instruction that writes one general register and falls through. -/
def writeAndNext (rd : RegIndex) (v : Word) (s : State) : Answer := .next (s.setReg rd v).advance

/-- The 64-bit two's complement product of the signed readings (R143). -/
def signedProduct (a b : Word) : BitVec 64 := BitVec.ofInt 64 (a.toInt * b.toInt)

/-- R144's quotient and remainder, LO then HI, or the divide fault: division truncates toward zero and the remainder
has the sign of the dividend. -/
def signedDivide (a b : Word) : Except FaultCause (Word × Word) :=
  if b = 0 then .error .divideByZero
  else if a = 0x80000000 ∧ b = 0xFFFFFFFF then .error .divideOverflow
  else
    let q := a.toInt.tdiv b.toInt
    .ok (BitVec.ofInt 32 q, BitVec.ofInt 32 (a.toInt - q * b.toInt))

/-- sll (R150). -/
def execSll (rd rt : RegIndex) (shamt : Nat) (s : State) : Answer := writeAndNext rd (s.reg rt <<< shamt) s

/-- srl, logical (R151). -/
def execSrl (rd rt : RegIndex) (shamt : Nat) (s : State) : Answer := writeAndNext rd (s.reg rt >>> shamt) s

/-- mfhi (R145). -/
def execMfhi (rd : RegIndex) (s : State) : Answer := writeAndNext rd s.hi s

/-- mflo (R146). -/
def execMflo (rd : RegIndex) (s : State) : Answer := writeAndNext rd s.lo s

/-- mul: HI is the product's bits 63:32, LO its bits 31:0 (R143). -/
def execMul (rs rt : RegIndex) (s : State) : Answer :=
  let p := signedProduct (s.reg rs) (s.reg rt)
  .next (s.setHiLo (p.extractLsb' 32 32) (p.extractLsb' 0 32)).advance

/-- div (R144). -/
def execDiv (rs rt : RegIndex) (s : State) : Answer :=
  .next (commit s ((signedDivide (s.reg rs) (s.reg rt)).map fun qr => s.setHiLo qr.2 qr.1))

/-- add, wrapping (R141). -/
def execAdd (rd rs rt : RegIndex) (s : State) : Answer := writeAndNext rd (s.reg rs + s.reg rt) s

/-- sub, wrapping (R142). -/
def execSub (rd rs rt : RegIndex) (s : State) : Answer := writeAndNext rd (s.reg rs - s.reg rt) s

/-- and (R147). -/
def execAnd (rd rs rt : RegIndex) (s : State) : Answer := writeAndNext rd (s.reg rs &&& s.reg rt) s

/-- or (R148). -/
def execOr (rd rs rt : RegIndex) (s : State) : Answer := writeAndNext rd (s.reg rs ||| s.reg rt) s

/-- xor (R152). -/
def execXor (rd rs rt : RegIndex) (s : State) : Answer := writeAndNext rd (s.reg rs ^^^ s.reg rt) s

/-- nor (R149). -/
def execNor (rd rs rt : RegIndex) (s : State) : Answer := writeAndNext rd (~~~(s.reg rs ||| s.reg rt)) s

end Sys2Proof.Machine
end

