-- ==== Sys2Proof/Machine/ImmediateAlu.lean ====
section
/-!
DEFINITION. The immediate-format ALU family (42_immediate_alu.md): rt is the destination, rs the source.
-/

namespace Sys2Proof.Machine

/-- addi, sign-extended and wrapping (R170). -/
def execAddi (rt rs : RegIndex) (imm : BitVec 16) (s : State) : Answer := writeAndNext rt (s.reg rs + sext16 imm) s

/-- andi, zero-extended (R171). -/
def execAndi (rt rs : RegIndex) (imm : BitVec 16) (s : State) : Answer := writeAndNext rt (s.reg rs &&& zext16 imm) s

/-- ori, zero-extended (R172). -/
def execOri (rt rs : RegIndex) (imm : BitVec 16) (s : State) : Answer := writeAndNext rt (s.reg rs ||| zext16 imm) s

/-- xori, zero-extended (R173). -/
def execXori (rt rs : RegIndex) (imm : BitVec 16) (s : State) : Answer := writeAndNext rt (s.reg rs ^^^ zext16 imm) s

end Sys2Proof.Machine
end

