-- ==== Sys2Proof/Machine/LoadStore.lean ====
section
/-!
DEFINITION. Loads and stores (44_load_store.md). The base register is never modified (R200).
-/

namespace Sys2Proof.Machine

/-- A load's end: the value read goes to a register, or the access's fault is taken. -/
def loadResult (rt : RegIndex) (v : Except FaultCause Word) (s : State) : Answer :=
  .next (commit s (v.map fun x => s.setReg rt x))

/-- A store's end: memory is the written one, or the access's fault is taken and no byte is written. -/
def storeResult (m : Except FaultCause Memory) (s : State) : Answer :=
  .next (commit s (m.map fun x => s.setMem x))

/-- lw (R202). -/
def execLw (rt rs : RegIndex) (imm : BitVec 16) (s : State) : Answer :=
  loadResult rt (readWord s.mem (effectiveAddress s rs imm)) s

/-- lbu, zero-extended (R201). -/
def execLbu (rt rs : RegIndex) (imm : BitVec 16) (s : State) : Answer :=
  loadResult rt ((readByte s.mem (effectiveAddress s rs imm)).map zext8) s

/-- sb: the low byte of x[rt] (R203). -/
def execSb (rt rs : RegIndex) (imm : BitVec 16) (s : State) : Answer :=
  storeResult (writeByte s.mem (effectiveAddress s rs imm) (lowByte (s.reg rt))) s

/-- sw (R204). -/
def execSw (rt rs : RegIndex) (imm : BitVec 16) (s : State) : Answer :=
  storeResult (writeWord s.mem (effectiveAddress s rs imm) (s.reg rt)) s

end Sys2Proof.Machine
end

