-- ==== Sys2Proof/Machine/Syscall.lean ====
section
/-!
DEFINITION. The six syscall services (45_syscall.md). The host's answers are free values (R223).
-/

namespace Sys2Proof.Machine

/-- The end of an I/O service: x[REG_V0] receives the result and the step falls through (R215). -/
def ioResult (r : State × Word) : State := r.1.setReg regV0 r.2

/-- exit (R216). -/
def execExit (s : State) : Answer := .next (halt s)

/-- pstr: the scan comes first, so a fault issues no request (R217, R218); on success the result is the number of bytes
written, the terminator not counted (R223). -/
def execPstr (s : State) : Answer :=
  .next (commit s ((scanString stringFuel s.mem (s.reg regA0)).map fun bytes =>
    ioResult (hostWrite s (.writeBytes bytes) (BitVec.ofNat 32 bytes.length))))

/-- pch: the low byte of x[REG_A0]; on success the result is that byte zero-extended (R219, R223). -/
def execPch (s : State) : Answer :=
  let b := lowByte (s.reg regA0)
  .next (ioResult (hostWrite s (.writeByte b) (zext8 b))).advance

/-- The end of a read: the answer's value is returned and the step falls through; without an answer the core stays in the
read, blocked for ever, the PC at the rch and nothing else changed (R220, I16; log entry 6). -/
def finishRead (reply : Option ReadReply) (s : State) : State :=
  match reply with
  | some r => (ioResult (s.report (.io (.read r)), readValue r)).advance
  | none => s.setBlocked true

/-- rch (R220). -/
def execRch (s : State) : Answer := .next (finishRead (hostRead s) s)

/-- stra: set, not toggle (R221, C6). -/
def execStra (s : State) : Answer := .next (s.setTrace true).advance

/-- notr: clear, not toggle (R222, C6). -/
def execNotr (s : State) : Answer := .next (s.setTrace false).advance

end Sys2Proof.Machine
end

