-- ==== Sys2Proof/Machine/Fetch.lean ====
section
/-!
DEFINITION. The front of a step: fetch, trace and decode (R121 to R123), and the placing of an instruction word where
the next fetch reads it.
-/

namespace Sys2Proof.Machine

/-- What fetch, trace and decode leave to do. -/
inductive Fetched where
  /-- The step ends in this state: the core is blocked (R220), or the fetch or the decoding faulted (R121, R123). -/
  | stop (t : State)
  /-- This instruction is to be run against this state, the step's trace event already emitted (R122, R124). -/
  | run (i : Instr) (t : State)
  deriving DecidableEq, Repr

/-- Steps 1 to 3: a fetch fault emits no trace event, an illegal word is traced before it faults (R121, R122, R123). A core
blocked in a read the host never answers makes no progress (R220, I16). -/
def fetchInstr (s : State) : Fetched :=
  if s.blocked then .stop s
  else
    match fetchWord s.mem s.pc with
    | .error c => .stop (raise c s)
    | .ok w =>
      match decode w with
      | .error k => .stop (raise (illegalCause k) (traceStep w s))
      | .ok i => .run i (traceStep w s)

/-- Why a state of this status has no step, if it has none (R120). -/
def noStep : RunStatus → Option Fault
  | .loading => some .notStarted
  | .validating => some .notStarted
  | .running => none
  | .halted => some .runEnded
  | .faulted _ => some .runEnded
  | .loadFailed _ => some .runEnded

/-- The state with a word stored at the PC through the word view, where the next fetch reads it; unchanged where the PC
cannot be fetched from. -/
def placeWord (s : State) (v : Word) : State :=
  match writeWord s.mem s.pc v with
  | .ok m => s.setMem m
  | .error _ => s

end Sys2Proof.Machine
end

