-- ==== Sys2Proof/Machine/Step.lean ====
section
/-!
DEFINITION. One step of the core (R120, R128).
-/

namespace Sys2Proof.Machine

/-- A step exists only when status is Running (R120): fetch, trace and decode, then the instruction's rule, which also
advances the PC and takes its own faults (R124 to R126). -/
def step (s : State) : Host.Outcome State Fault Refusal :=
  match noStep s.status with
  | some f => .fault f
  | none =>
    match fetchInstr s with
    | .stop t => .next t
    | .run i t => exec i t

/-- The state with an instruction word at the PC, its bits numbered as spec/opcode_table.json numbers them. An
instruction is one 32-bit word (R90); bits above `nbits` are 0. The core is not blocked, so that it fetches.
A program comes to run as log entry 8 says. -/
def State.withFetchWord (s : State) (nbits w : Nat) : State :=
  (placeWord s (BitVec.ofNat 32 (w % 2 ^ nbits))).setBlocked false

end Sys2Proof.Machine
end

