-- ==== Sys2Proof/Machine/Asm.lean ====
section
/-!
DEFINITION. The assembler's notation (R112, R113, R115): register names, the text of an instruction, operand ranges and
label arithmetic. It has no effect on the machine.
-/

namespace Sys2Proof.Machine

/-- The names of registers 0 to 15 (R112). -/
def lowRegNames : List String :=
  ["$zero", "$at", "$v0", "$v1", "$a0", "$a1", "$a2", "$a3", "$t0", "$t1", "$t2", "$t3", "$t4", "$t5", "$t6", "$t7"]

/-- The names of registers 16 to 31 (R112). -/
def highRegNames : List String :=
  ["$s0", "$s1", "$s2", "$s3", "$s4", "$s5", "$s6", "$s7", "$t8", "$t9", "$k0", "$k1", "$gp", "$sp", "$fp", "$ra"]

/-- The conventional name of a register (R112). -/
def regName (r : RegIndex) : String := (lowRegNames ++ highRegNames).getD r.toNat ""

/-- `op rd, rs, rt` and the like: operands after the mnemonic, comma-separated (R113). -/
def asmLine (op : String) : List String → String
  | [] => op
  | x :: xs => xs.foldl (fun text y => text ++ ", " ++ y) (op ++ " " ++ x)

/-- A signed 16-bit operand, in decimal (R113; log entry 21). -/
def signedText (imm : BitVec 16) : String := toString imm.toInt

/-- An unsigned operand, in decimal (R113; log entry 21). -/
def unsignedText (n : Nat) : String := toString n

/-- `disp(rs)` (R113). -/
def addressText (rs : RegIndex) (imm : BitVec 16) : String := signedText imm ++ "(" ++ regName rs ++ ")"

/-- The assembler text of an instruction (R113). -/
def asm (i : Instr) : String :=
  match i with
  | .sll rd rt shamt => asmLine i.mnemonic [regName rd, regName rt, unsignedText shamt]
  | .srl rd rt shamt => asmLine i.mnemonic [regName rd, regName rt, unsignedText shamt]
  | .jr rs => asmLine i.mnemonic [regName rs]
  | .mfhi rd => asmLine i.mnemonic [regName rd]
  | .mflo rd => asmLine i.mnemonic [regName rd]
  | .mul rs rt => asmLine i.mnemonic [regName rs, regName rt]
  | .div rs rt => asmLine i.mnemonic [regName rs, regName rt]
  | .add rd rs rt => asmLine i.mnemonic [regName rd, regName rs, regName rt]
  | .sub rd rs rt => asmLine i.mnemonic [regName rd, regName rs, regName rt]
  | .and rd rs rt => asmLine i.mnemonic [regName rd, regName rs, regName rt]
  | .or rd rs rt => asmLine i.mnemonic [regName rd, regName rs, regName rt]
  | .xor rd rs rt => asmLine i.mnemonic [regName rd, regName rs, regName rt]
  | .nor rd rs rt => asmLine i.mnemonic [regName rd, regName rs, regName rt]
  | .addi rt rs imm => asmLine i.mnemonic [regName rt, regName rs, signedText imm]
  | .andi rt rs imm => asmLine i.mnemonic [regName rt, regName rs, unsignedText imm.toNat]
  | .ori rt rs imm => asmLine i.mnemonic [regName rt, regName rs, unsignedText imm.toNat]
  | .xori rt rs imm => asmLine i.mnemonic [regName rt, regName rs, unsignedText imm.toNat]
  | .beq rs rt imm => asmLine i.mnemonic [regName rs, regName rt, signedText imm]
  | .bne rs rt imm => asmLine i.mnemonic [regName rs, regName rt, signedText imm]
  | .blez rs imm => asmLine i.mnemonic [regName rs, signedText imm]
  | .bgtz rs imm => asmLine i.mnemonic [regName rs, signedText imm]
  | .bltz rs imm => asmLine i.mnemonic [regName rs, signedText imm]
  | .bgez rs imm => asmLine i.mnemonic [regName rs, signedText imm]
  | .lw rt rs imm => asmLine i.mnemonic [regName rt, addressText rs imm]
  | .lbu rt rs imm => asmLine i.mnemonic [regName rt, addressText rs imm]
  | .sb rt rs imm => asmLine i.mnemonic [regName rt, addressText rs imm]
  | .sw rt rs imm => asmLine i.mnemonic [regName rt, addressText rs imm]
  | .jmp target => asmLine i.mnemonic [unsignedText target.toNat]
  | .jal target => asmLine i.mnemonic [unsignedText target.toNat]
  | .pstr => asmLine i.mnemonic []
  | .exit => asmLine i.mnemonic []
  | .pch => asmLine i.mnemonic []
  | .rch => asmLine i.mnemonic []
  | .stra => asmLine i.mnemonic []
  | .notr => asmLine i.mnemonic []

/-- The field of a signed operand in -32768..32767 (addi, displacements, branch offsets; R113). -/
def signedField (n : Int) : Option (BitVec 16) :=
  if -32768 ≤ n ∧ n ≤ 32767 then some (BitVec.ofInt 16 n) else none

/-- The field of an unsigned operand in 0..65535 (andi, ori, xori; R113). -/
def unsignedField (n : Int) : Option (BitVec 16) :=
  if 0 ≤ n ∧ n ≤ 65535 then some (BitVec.ofInt 16 n) else none

/-- The offset of a branch at address `a` to label `l`, `(L - (A + 4)) / 4`, if that is a whole number of words that
fits the field (R115). -/
def labelOffset (a l : Word) : Option (BitVec 16) :=
  let d := (l - (a + 4)).toInt
  if d % 4 = 0 then signedField (d / 4) else none

/-- The target field of a jump to label `l`: `(L >> 2) mod 2^26` (R115). -/
def labelTarget (l : Word) : BitVec 26 := (l >>> 2).setWidth 26

end Sys2Proof.Machine
end

