-- ==== Sys2Proof/Machine/Reset.lean ====
section
/-!
DEFINITION. The reset procedure (70_reset_and_hazards.md): from Loading through Validating to Running, or to LoadFailed.
It is no step (R120): its input, the header and the words, comes from the external loader (R271).
-/

namespace Sys2Proof.Machine

/-- The header's five 32-bit values (R271). -/
structure Header where
  textStart : Word
  /-- In bytes. -/
  textLen : Word
  dataStart : Word
  /-- In bytes. -/
  dataLen : Word
  stackBottom : Word
  deriving DecidableEq, Repr

/-- What the loader delivers: the header, the text words and the data words (R271). -/
structure Image where
  header : Header
  text : List Word
  data : List Word
  deriving DecidableEq, Repr

/-- Words a segment of so many bytes holds (R272, R273). The length is read unsigned; the spec does not say how a length
with bit 31 set is read: DESIGN CHOICE, log entry 26. -/
def wordCount (len : Word) : Nat := len.toNat / wordBytes

/-- Every word address start + 4i, i < n, is in range for a 4-byte access (the condition of L7), in closed form:
addresses cannot wrap round before one of them is out of range (log entry 16). -/
def segmentFits (start : Word) (n : Nat) : Bool :=
  n == 0 || (decide (0 ≤ start.toInt) && decide (start.toNat + wordBytes * n ≤ memBytes))

/-- The checks L1 to L7 in order; the first that fails is the error (R272). -/
def validate (h : Header) : Option LoadError :=
  if !aligned h.textStart then some .misalignedTextStart
  else if h.dataStart.toInt < h.textStart.toInt then some .textBeyondData
  else if !aligned h.dataStart then some .misalignedDataStart
  else if !aligned h.stackBottom then some .misalignedStackBottom
  else if h.stackBottom.toInt < h.dataStart.toInt then some .stackBelowData
  else if !(aligned h.textLen && aligned h.dataLen) then some .segmentLengthNotWords
  else if !(segmentFits h.textStart (wordCount h.textLen) && segmentFits h.dataStart (wordCount h.dataLen)) then
    some .segmentOutOfMemory
  else none

/-- Words stored one after another from a byte address, each in the machine's byte order (R273). -/
def storeWords (m : Memory) (a : Nat) : List Word → Memory
  | [] => m
  | v :: vs => storeWords (m.putWord a v) (a + wordBytes) vs

/-- Zero fill, then the text words, then the data words, which win where they overlap (R273). -/
def initialMemory (im : Image) : Memory :=
  let h := im.header
  storeWords (storeWords [] h.textStart.toNat (im.text.take (wordCount h.textLen)))
    h.dataStart.toNat (im.data.take (wordCount h.dataLen))

/-- The machine before the header is read: status Loading, all else 0 (log entry 13). -/
def powerOn : State where
  pc := 0
  regs := Vector.replicate 32 0
  hi := 0
  lo := 0
  mem := []
  trace := false
  status := .loading
  blocked := false
  events := []

/-- Loading to Validating: "header parsed, registers initialized" (R270, R274). -/
def seedRegisters (h : Header) (s : State) : State :=
  ((((s.setPc h.textStart).setReg regGP h.dataStart).setReg regFP h.stackBottom).setReg regSP
    h.stackBottom).setStatus .validating

/-- Validating to Running with the memory image in place, or to LoadFailed, reported to the host (R257, R270, R275). -/
def finishReset (im : Image) (s : State) : State :=
  match validate im.header with
  | some e => endRun (.loadFailed e) s
  | none => ((s.setMem (initialMemory im)).setTrace false).setStatus .running

/-- The whole reset procedure for what the loader delivers. -/
def boot (im : Image) : State := finishReset im (seedRegisters im.header powerOn)

/-- The image behind `State.reset`: the default header of 95_test_vectors.md part 3, and no words (log entry 7). -/
def bareImage : Image where
  header := { textStart := 0, textLen := 0, dataStart := 0x400, dataLen := 0, stackBottom := 0x1000 }
  text := []
  data := []

end Sys2Proof.Machine
end

