-- ==== Sys2Proof/Safety.lean ====
section
/-!
DEFINITION. The terms claims use: frames (what an instruction leaves unchanged), the ways a step can end, and the
invariants of a run.
-/

namespace Sys2Proof.Machine

/-! ### Words as the spec lays them out (R92 to R95) -/

/-- RegisterOp (R92). -/
def layoutR (rs rt rd shamt : BitVec 5) (funct : BitVec 6) : Word := 0#6 ++ rs ++ rt ++ rd ++ shamt ++ funct

/-- ImmediateOp (R93). -/
def layoutI (op : BitVec 6) (rs rt : BitVec 5) (imm : BitVec 16) : Word := op ++ rs ++ rt ++ imm

/-- JumpOp (R94). -/
def layoutJ (op : BitVec 6) (target : BitVec 26) : Word := op ++ target

/-- SyscallOp (R95). -/
def layoutS (code : BitVec 20) : Word := 0#6 ++ code ++ 12#6

/-! ### Frames -/

/-- Every register keeps its value. -/
def SameRegs (s t : State) : Prop := ∀ r, t.reg r = s.reg r

/-- Every register but d keeps its value. -/
def SameRegsExcept (d : RegIndex) (s t : State) : Prop := ∀ r, r ≠ d → t.reg r = s.reg r

/-- HI and LO keep their values. -/
def SameHiLo (s t : State) : Prop := t.hi = s.hi ∧ t.lo = s.lo

/-- Every byte of memory reads as before. -/
def SameMemory (s t : State) : Prop := ∀ a, t.mem.read a = s.mem.read a

/-- Every byte outside the n bytes from address a reads as before. -/
def SameMemoryExcept (a n : Nat) (s t : State) : Prop := ∀ b, b < a ∨ a + n ≤ b → t.mem.read b = s.mem.read b

/-- The trace flag, the run status, whether the core is blocked, and the record of host interactions are unchanged. -/
def SameRun (s t : State) : Prop :=
  t.trace = s.trace ∧ t.status = s.status ∧ t.blocked = s.blocked ∧ t.events = s.events

/-! ### The ways an instruction ends -/

/-- t is s after an instruction that wrote v to register d and nothing else, and fell through. -/
structure WroteRegister (d : RegIndex) (v : Word) (s t : State) : Prop where
  value : t.reg d = v
  others : SameRegsExcept d s t
  pc : t.pc = s.pc + 4
  hiLo : SameHiLo s t
  memory : SameMemory s t
  run : SameRun s t

/-- t is s after an instruction that wrote HI and LO and nothing else, and fell through. -/
structure WroteHiLo (hi lo : Word) (s t : State) : Prop where
  hi : t.hi = hi
  lo : t.lo = lo
  regs : SameRegs s t
  pc : t.pc = s.pc + 4
  memory : SameMemory s t
  run : SameRun s t

/-- t is s with the PC at `target` and nothing else changed. -/
structure MovedTo (target : Word) (s t : State) : Prop where
  pc : t.pc = target
  regs : SameRegs s t
  hiLo : SameHiLo s t
  memory : SameMemory s t
  run : SameRun s t

/-- t is s after a store that replaced the bytes from address a by `bytes`, lowest address first, and fell through. -/
structure Stored (a : Nat) (bytes : List Byte) (s t : State) : Prop where
  stored : ∀ k (h : k < bytes.length), t.mem.read (a + k) = bytes[k]
  outside : SameMemoryExcept a bytes.length s t
  regs : SameRegs s t
  hiLo : SameHiLo s t
  pc : t.pc = s.pc + 4
  run : SameRun s t

/-- t is s after an I/O service: the interaction is recorded, its result is in x[2], and the service fell through. -/
structure DidIo (e : IoEvent) (result : Word) (s t : State) : Prop where
  event : t.events = .io e :: s.events
  value : t.reg 2 = result
  others : SameRegsExcept 2 s t
  pc : t.pc = s.pc + 4
  hiLo : SameHiLo s t
  memory : SameMemory s t
  trace : t.trace = s.trace
  status : t.status = s.status
  blocked : t.blocked = s.blocked

/-- t is s with the core blocked inside its read: no step leaves it, and nothing else changed (R220, I16). -/
structure BlockedInRead (s t : State) : Prop where
  blocked : t.blocked = true
  pc : t.pc = s.pc
  regs : SameRegs s t
  hiLo : SameHiLo s t
  memory : SameMemory s t
  trace : t.trace = s.trace
  status : t.status = s.status
  events : t.events = s.events
  stuck : t.status = .running → step t = .next t

/-- t is s with the run ended in status st, the end reported, and nothing else changed. -/
structure EndedWith (st : RunStatus) (s t : State) : Prop where
  status : t.status = st
  event : t.events = .ended st :: s.events
  pc : t.pc = s.pc
  regs : SameRegs s t
  hiLo : SameHiLo s t
  memory : SameMemory s t
  trace : t.trace = s.trace
  blocked : t.blocked = s.blocked

/-- t is s with the fault c taken: the record holds s's PC, the word there if it can be fetched, and c (R46, R241). -/
def TookFault (c : FaultCause) (s t : State) : Prop :=
  EndedWith (.faulted { pc := s.pc, word := fetchedWord s, cause := c }) s t

/-! ### Which registers an instruction writes and reads (R35, R36) -/

/-- The general register an instruction writes, by the table of R35; none for an instruction the table leaves out. -/
def writtenReg : Instr → Option RegIndex
  | .sll rd _ _ => some rd
  | .srl rd _ _ => some rd
  | .jr _ => none
  | .mfhi rd => some rd
  | .mflo rd => some rd
  | .mul _ _ => none
  | .div _ _ => none
  | .add rd _ _ => some rd
  | .sub rd _ _ => some rd
  | .and rd _ _ => some rd
  | .or rd _ _ => some rd
  | .xor rd _ _ => some rd
  | .nor rd _ _ => some rd
  | .addi rt _ _ => some rt
  | .andi rt _ _ => some rt
  | .ori rt _ _ => some rt
  | .xori rt _ _ => some rt
  | .beq _ _ _ => none
  | .bne _ _ _ => none
  | .blez _ _ => none
  | .bgtz _ _ => none
  | .bltz _ _ => none
  | .bgez _ _ => none
  | .lw rt _ _ => some rt
  | .lbu rt _ _ => some rt
  | .sb _ _ _ => none
  | .sw _ _ _ => none
  | .jmp _ => none
  | .jal _ => some 31
  | .pstr => some 2
  | .exit => none
  | .pch => some 2
  | .rch => some 2
  | .stra => none
  | .notr => none

/-- The general registers an instruction reads, by the table of R36. -/
def readRegs : Instr → List RegIndex
  | .sll _ rt _ => [rt]
  | .srl _ rt _ => [rt]
  | .jr rs => [rs]
  | .mfhi _ => []
  | .mflo _ => []
  | .mul rs rt => [rs, rt]
  | .div rs rt => [rs, rt]
  | .add _ rs rt => [rs, rt]
  | .sub _ rs rt => [rs, rt]
  | .and _ rs rt => [rs, rt]
  | .or _ rs rt => [rs, rt]
  | .xor _ rs rt => [rs, rt]
  | .nor _ rs rt => [rs, rt]
  | .addi _ rs _ => [rs]
  | .andi _ rs _ => [rs]
  | .ori _ rs _ => [rs]
  | .xori _ rs _ => [rs]
  | .beq rs rt _ => [rs, rt]
  | .bne rs rt _ => [rs, rt]
  | .blez rs _ => [rs]
  | .bgtz rs _ => [rs]
  | .bltz rs _ => [rs]
  | .bgez rs _ => [rs]
  | .lw _ rs _ => [rs]
  | .lbu _ rs _ => [rs]
  | .sb rt rs _ => [rs, rt]
  | .sw rt rs _ => [rs, rt]
  | .jmp _ => []
  | .jal _ => []
  | .pstr => [4]
  | .exit => []
  | .pch => [4]
  | .rch => []
  | .stra => []
  | .notr => []

/-! ### Where the PC goes (R40) -/

/-- The target of an explicit transfer: jr, a taken branch, jmp or jal; none for anything that falls through. -/
def transferTarget (i : Instr) (s : State) : Option Word :=
  match i with
  | .jr rs => some (s.reg rs)
  | .beq rs rt imm => if s.reg rs = s.reg rt then some (branchTarget s.pc imm) else none
  | .bne rs rt imm => if s.reg rs ≠ s.reg rt then some (branchTarget s.pc imm) else none
  | .blez rs imm => if (s.reg rs).toInt ≤ 0 then some (branchTarget s.pc imm) else none
  | .bgtz rs imm => if 0 < (s.reg rs).toInt then some (branchTarget s.pc imm) else none
  | .bltz rs imm => if (s.reg rs).toInt < 0 then some (branchTarget s.pc imm) else none
  | .bgez rs imm => if 0 ≤ (s.reg rs).toInt then some (branchTarget s.pc imm) else none
  | .jmp target => some (jumpTarget s.pc target)
  | .jal target => some (jumpTarget s.pc target)
  | .sll _ _ _ => none
  | .srl _ _ _ => none
  | .mfhi _ => none
  | .mflo _ => none
  | .mul _ _ => none
  | .div _ _ => none
  | .add _ _ _ => none
  | .sub _ _ _ => none
  | .and _ _ _ => none
  | .or _ _ _ => none
  | .xor _ _ _ => none
  | .nor _ _ _ => none
  | .addi _ _ _ => none
  | .andi _ _ _ => none
  | .ori _ _ _ => none
  | .xori _ _ _ => none
  | .lw _ _ _ => none
  | .lbu _ _ _ => none
  | .sb _ _ _ => none
  | .sw _ _ _ => none
  | .pstr => none
  | .exit => none
  | .pch => none
  | .rch => none
  | .stra => none
  | .notr => none

/-! ### Tracing -/

/-- The trace events among the interactions, newest first. -/
def traceHistory : List HostEvent → List Snapshot
  | [] => []
  | .io _ :: es => traceHistory es
  | .trace snapshot :: es => snapshot :: traceHistory es
  | .ended _ :: es => traceHistory es

/-- The snapshot of a state before it runs the word w (R122, R258). -/
def State.snapshot (s : State) (w : Word) : Snapshot :=
  { pc := s.pc, hi := s.hi, lo := s.lo, regs := s.regs, mem := s.mem, word := w }

/-- Two states that differ at most in the trace flag and in the trace events emitted so far. -/
structure SameButTracing (s t : State) : Prop where
  pc : t.pc = s.pc
  regs : t.regs = s.regs
  hi : t.hi = s.hi
  lo : t.lo = s.lo
  mem : t.mem = s.mem
  status : t.status = s.status
  blocked : t.blocked = s.blocked
  io : ioHistory t.events = ioHistory s.events

/-! ### Strings in memory (R217) -/

/-- The byte string stands at address a, followed by a 0 byte, all of it inside memory and none of its bytes 0. -/
structure StringAt (m : Memory) (a : Nat) (bytes : List Byte) : Prop where
  inside : a + bytes.length < memBytes
  byte : ∀ k (h : k < bytes.length), m.read (a + k) = bytes[k] ∧ bytes[k] ≠ 0
  terminator : m.read (a + bytes.length) = 0

/-! ### Invariants of a run -/

/-- No rule leaves this status (R45). -/
def RunStatus.terminal : RunStatus → Bool
  | .loading => false
  | .validating => false
  | .running => false
  | .halted => true
  | .faulted _ => true
  | .loadFailed _ => true

/-- No end of run is among the events. -/
def noEnd : List HostEvent → Bool
  | [] => true
  | .io _ :: es => noEnd es
  | .trace _ :: es => noEnd es
  | .ended _ :: _ => false

/-- The outcome is reported once, as the last interaction, exactly when the run has ended (R257). -/
def EndReported (s : State) : Prop :=
  if s.status.terminal then ∃ earlier, s.events = .ended s.status :: earlier ∧ noEnd earlier = true
  else noEnd s.events = true

/-- A fault is precise: the faulted state, were it running again, takes the same fault with the same record (R127). -/
def FaultPrecise (s : State) : Prop :=
  ∀ record, s.status = .faulted record →
    ∃ t, step (s.setStatus .running) = .next t ∧ t.status = .faulted record

/-- A blocked core is a running one, at a rch whose read the host never answers (R220, I16). -/
def BlockedAtRch (s : State) : Prop :=
  s.blocked = true →
    s.status = .running ∧ hostRead s = none ∧ ∃ w, fetchWord s.mem s.pc = .ok w ∧ decode w = .ok .rch

/-- What every step keeps: memory in its canonical form, the end reported once, faults precise, and the core blocked only
where the host never answers. -/
def State.Inv (s : State) : Prop := s.mem.wf ∧ EndReported s ∧ FaultPrecise s ∧ BlockedAtRch s

end Sys2Proof.Machine
end

