-- ==== Sys2Proof/Certificates/Slice0/Obligations.lean ====
section
/-!
DEFINITION. The statements for the provers, from the numbered rules of spec/. Each says what its title in
OBLIGATIONS.json says; the docstring names the rules it formalises.
-/

open Sys2Proof Sys2Proof.Machine

/-! ### Encoding -/

/-- R92 to R96, R111: under every numeric assignment without a clash, and the default one is such, the decoder reads back
every instruction some word stands for. -/
def Obligations.DecodeOfEncode : Prop :=
  opcodeMap.Distinct ∧
  ∀ m : OpcodeMap, m.Distinct → ∀ i : Instr, i.wellFormed = true → decodeWith m (encodeWith m i) = .ok i

/-- R92 to R95, R103 to R108, R111: a word decodes to an instruction exactly when the bits the instruction does not ignore
are those of its encoding; so ignored fields have no effect, and every other bit counts. That the encoding has 0 in the
ignored fields is the model's (log entry 25). -/
def Obligations.DecodeIgnoresExactlyUnusedFields : Prop :=
  ∀ (w : Word) (i : Instr), decode w = .ok i ↔ i.wellFormed = true ∧ w &&& i.usedBits = encode i

/-- spec/opcode_table.json and the first sentence of R107: a word that decodes is of the row of its mnemonic, no word is
of two rows, and a word is illegal exactly when it is of no row. -/
def Obligations.DecodeAgreesWithOpcodeTable : Prop :=
  ∀ w : Word,
    (∀ i, decode w = .ok i → ∃ row ∈ opcodeTable, row.mnemonic = i.mnemonic ∧ row.matchesWord w = true) ∧
    (∀ row ∈ opcodeTable, ∀ row' ∈ opcodeTable,
      row.matchesWord w = true → row'.matchesWord w = true → row = row') ∧
    ((∃ k, decode w = .error k) ↔ ∀ row ∈ opcodeTable, row.matchesWord w = false)

/-- R103 to R107: which words are illegal, and of which kind, by the numbers of the four maps. -/
def Obligations.IllegalWordsByKind : Prop :=
  ∀ w : Word,
    (decode w = .error .illegalSyscall ↔
      w.extractLsb' 26 6 = 0 ∧ w.extractLsb' 0 6 = 12 ∧
      (w.extractLsb' 6 20).toNat ∉ [4, 10, 11, 12, 2046, 2047]) ∧
    (decode w = .error .illegalInstruction ↔
      (w.extractLsb' 26 6 = 0 ∧
        (w.extractLsb' 0 6).toNat ∉ [0, 2, 8, 12, 16, 18, 24, 26, 33, 35, 36, 37, 38, 39]) ∨
      (w.extractLsb' 26 6 = 1 ∧ (w.extractLsb' 16 5).toNat ∉ [0, 1]) ∨
      (w.extractLsb' 26 6).toNat ∉ [0, 1, 2, 3, 4, 5, 6, 7, 9, 12, 13, 14, 35, 36, 40, 43])

/-- A sanity statement: one word of each family from the encoding examples of R116. -/
def Obligations.EncodingExamples : Prop :=
  decode 0x00851023 = .ok (.sub 2 4 5) ∧
  decode 0x00094042 = .ok (.srl 8 9 1) ∧
  decode 0x3128FFFF = .ok (.andi 8 9 0xFFFF) ∧
  decode 0x1500FFFF = .ok (.bne 8 0 0xFFFF) ∧
  decode 0x05010004 = .ok (.bgez 8 4) ∧
  decode 0x0C000006 = .ok (.jal 6) ∧
  decode 0xAFA8FFFC = .ok (.sw 8 29 0xFFFC) ∧
  decode 0x0001FFCC = .ok .notr

/-! ### The step -/

/-- R128: the step of a core that is not blocked runs the decoded instruction's rule, after emitting the step's trace event
if tracing is on; exec itself advances the PC and takes the instruction's own faults. -/
def Obligations.StepRunsTheDecodedInstruction : Prop :=
  ∀ (s : State) (w : Word) (i : Instr),
    s.status = .running → s.blocked = false → fetchWord s.mem s.pc = .ok w → decode w = .ok i →
    step s = exec i (traceStep w s)

/-- R220, I16 (the form is the model's, log entry 6): a core blocked in a rch the host never answers makes no progress,
however many steps go by: its run is stuck in that one state, and no end of it is ever reached. -/
def Obligations.BlockedCoreMakesNoProgress : Prop :=
  ∀ (n : Nat) (s : State), s.status = .running → s.blocked = true → core.run n s = .next s

/-- R68 and R121: an aligned PC in 0..65528 fetches the four bytes there, in the default byte order; a PC that is no
multiple of 4, else one outside that range, faults at fetch. The record has no word, no trace event is emitted, and
nothing else changes. -/
def Obligations.FetchChecksThePc : Prop :=
  ∀ s : State, s.status = .running → s.blocked = false →
    (s.pc.toNat % 4 = 0 → 0 ≤ s.pc.toInt → s.pc.toInt ≤ 65528 →
      fetchWord s.mem s.pc =
        .ok (s.mem.read (s.pc.toNat + 3) ++ s.mem.read (s.pc.toNat + 2) ++ s.mem.read (s.pc.toNat + 1) ++
          s.mem.read s.pc.toNat)) ∧
    (s.pc.toNat % 4 ≠ 0 →
      ∃ t, step s = .next t ∧
        EndedWith (.faulted { pc := s.pc, word := none, cause := .fetchMisaligned }) s t) ∧
    (s.pc.toNat % 4 = 0 → s.pc.toInt < 0 ∨ 65528 < s.pc.toInt →
      ∃ t, step s = .next t ∧
        EndedWith (.faulted { pc := s.pc, word := none, cause := .fetchOutOfRange }) s t)

/-- R123: an illegal word faults at decode, with its kind as the cause; the step's trace event has been
emitted, and nothing else changes. -/
def Obligations.IllegalWordFaultsAtDecode : Prop :=
  ∀ (s : State) (w : Word) (k : IllegalKind),
    s.status = .running → s.blocked = false → fetchWord s.mem s.pc = .ok w → decode w = .error k →
    ∃ t, step s = .next t ∧
      EndedWith (.faulted { pc := s.pc, word := some w, cause := illegalCause k }) (traceStep w s) t

/-- R122: a step emits one trace event, of the state before it, exactly when the flag is on at its start and the fetch
succeeds, whatever decoding and execution then do; it comes before every other interaction of the step. -/
def Obligations.TraceEventOfAStep : Prop :=
  ∀ s t : State, s.status = .running → s.blocked = false → step s = .next t →
    ∃ later, traceHistory later = [] ∧
      t.events = later ++
        match s.trace, fetchWord s.mem s.pc with
        | true, .ok w => .trace (s.snapshot w) :: s.events
        | _, _ => s.events

/-- R120: a state has a next state exactly when it is Running; any other has none, and is left by no step. That step answers
`runEnded` or `notStarted` there is the model's way of saying so (log entry 10): they are no faults of the spec. -/
def Obligations.StepExistsExactlyWhenRunning : Prop :=
  ∀ s : State,
    (s.status = .running ↔ ∃ t, step s = .next t) ∧
    (s.status.terminal = true ↔ step s = .fault .runEnded) ∧
    (s.status = .loading ∨ s.status = .validating ↔ step s = .fault .notStarted)

/-- R253: every instruction is executable in every state. -/
def Obligations.EveryInstructionIsExecutable : Prop :=
  ∀ (i : Instr) (s : State), ∃ t, exec i s = .next t

/-- R241: a step that faults leaves the state before it, with the record, and issues no I/O request; no later step
runs. -/
def Obligations.FaultCommitsNothing : Prop :=
  ∀ (s t : State) (record : FaultRecord),
    s.status = .running → step s = .next t → t.status = .faulted record →
    record.pc = s.pc ∧ record.word = fetchedWord s ∧ t.pc = s.pc ∧ SameRegs s t ∧ SameHiLo s t ∧
    SameMemory s t ∧ t.trace = s.trace ∧ ioHistory t.events = ioHistory s.events ∧ step t = .fault .runEnded

/-! ### Invariants -/

/-- R30, R47, R127, R257, I16: every step keeps the memory's canonical form, the single report of the end, the precision of
faults, and that the core is blocked only at a rch the host never answers (log entry 6). -/
def Obligations.StepKeepsTheInvariant : Prop :=
  ∀ s t : State, s.Inv → step s = .next t → t.Inv

/-- The state after reset meets the invariant. -/
def Obligations.ResetMeetsTheInvariant : Prop := State.reset.Inv

/-- R270 to R275: whatever the loader delivers, the reset procedure ends in a state that meets the invariant, its core not
blocked (the model's field, log entry 6). -/
def Obligations.BootMeetsTheInvariant : Prop := ∀ im : Image, (boot im).Inv ∧ (boot im).blocked = false

/-! ### Register ALU -/

/-- R141, R142: encoding with any shamt, result and frame of add and sub. -/
def Obligations.AddSubWrapAround : Prop :=
  ∀ (rs rt rd shamt : BitVec 5) (s : State),
    decode (layoutR rs rt rd shamt 33) = .ok (.add rd rs rt) ∧
    decode (layoutR rs rt rd shamt 35) = .ok (.sub rd rs rt) ∧
    (∃ t, exec (.add rd rs rt) s = .next t ∧
      WroteRegister rd (BitVec.ofInt 32 ((s.reg rs).toInt + (s.reg rt).toInt)) s t) ∧
    (∃ t, exec (.sub rd rs rt) s = .next t ∧
      WroteRegister rd (BitVec.ofInt 32 ((s.reg rs).toInt - (s.reg rt).toInt)) s t)

/-- The round trip of R142 (E1 of 95_test_vectors.md): add then sub of rt restores the first operand. -/
def Obligations.AddThenSubRestores : Prop :=
  ∀ (rd rs rt : RegIndex) (s : State), rd ≠ rs → rd ≠ rt →
    ∃ t u, exec (.add rd rs rt) s = .next t ∧ exec (.sub rd rd rt) t = .next u ∧ u.reg rd = s.reg rs

/-- R147, R148, R149, R152: encoding, result bit by bit, and frame of the bitwise instructions. -/
def Obligations.BitwiseLogicIsBitByBit : Prop :=
  ∀ (rs rt rd shamt : BitVec 5) (s : State),
    decode (layoutR rs rt rd shamt 36) = .ok (.and rd rs rt) ∧
    decode (layoutR rs rt rd shamt 37) = .ok (.or rd rs rt) ∧
    decode (layoutR rs rt rd shamt 38) = .ok (.xor rd rs rt) ∧
    decode (layoutR rs rt rd shamt 39) = .ok (.nor rd rs rt) ∧
    (∃ t v, exec (.and rd rs rt) s = .next t ∧ WroteRegister rd v s t ∧
      ∀ k < 32, v.getLsbD k = ((s.reg rs).getLsbD k && (s.reg rt).getLsbD k)) ∧
    (∃ t v, exec (.or rd rs rt) s = .next t ∧ WroteRegister rd v s t ∧
      ∀ k < 32, v.getLsbD k = ((s.reg rs).getLsbD k || (s.reg rt).getLsbD k)) ∧
    (∃ t v, exec (.xor rd rs rt) s = .next t ∧ WroteRegister rd v s t ∧
      ∀ k < 32, v.getLsbD k = ((s.reg rs).getLsbD k ^^ (s.reg rt).getLsbD k)) ∧
    (∃ t v, exec (.nor rd rs rt) s = .next t ∧ WroteRegister rd v s t ∧
      ∀ k < 32, v.getLsbD k = !((s.reg rs).getLsbD k || (s.reg rt).getLsbD k))

/-- R150, R151: encoding with any rs, result and frame of the logical shifts. -/
def Obligations.ShiftsAreLogical : Prop :=
  ∀ (rs rt rd shamt : BitVec 5) (s : State),
    decode (layoutR rs rt rd shamt 0) = .ok (.sll rd rt shamt.toNat) ∧
    decode (layoutR rs rt rd shamt 2) = .ok (.srl rd rt shamt.toNat) ∧
    (∃ t v, exec (.sll rd rt shamt.toNat) s = .next t ∧ WroteRegister rd v s t ∧
      v.toNat = (s.reg rt).toNat * 2 ^ shamt.toNat % 2 ^ 32) ∧
    (∃ t v, exec (.srl rd rt shamt.toNat) s = .next t ∧ WroteRegister rd v s t ∧
      v.toNat = (s.reg rt).toNat / 2 ^ shamt.toNat)

/-- R145, R146: encoding with any ignored field, result and frame of mfhi and mflo. -/
def Obligations.MoveFromHiLoCopies : Prop :=
  ∀ (rs rt rd shamt : BitVec 5) (s : State),
    decode (layoutR rs rt rd shamt 16) = .ok (.mfhi rd) ∧
    decode (layoutR rs rt rd shamt 18) = .ok (.mflo rd) ∧
    (∃ t, exec (.mfhi rd) s = .next t ∧ WroteRegister rd s.hi s t) ∧
    (∃ t, exec (.mflo rd) s = .next t ∧ WroteRegister rd s.lo s t)

/-- R143: HI:LO read as one signed 64-bit number is the exact product; no general register is written. -/
def Obligations.MulIsTheExactSignedProduct : Prop :=
  ∀ (rs rt rd shamt : BitVec 5) (s : State),
    decode (layoutR rs rt rd shamt 24) = .ok (.mul rs rt) ∧
    ∃ t hi lo, exec (.mul rs rt) s = .next t ∧ WroteHiLo hi lo s t ∧
      (hi ++ lo : BitVec 64).toInt = (s.reg rs).toInt * (s.reg rt).toInt

/-- R144: the three ways a div ends. The quotient and remainder are exact: b times the quotient plus the remainder is
the dividend, the remainder is smaller than the divisor and has the sign of the dividend. -/
def Obligations.DivTruncatesOrFaults : Prop :=
  ∀ (rs rt rd shamt : BitVec 5) (s : State),
    decode (layoutR rs rt rd shamt 26) = .ok (.div rs rt) ∧
    (s.reg rt = 0 → ∃ t, exec (.div rs rt) s = .next t ∧ TookFault .divideByZero s t) ∧
    (s.reg rs = 0x80000000 → s.reg rt = 0xFFFFFFFF →
      ∃ t, exec (.div rs rt) s = .next t ∧ TookFault .divideOverflow s t) ∧
    (s.reg rt ≠ 0 → ¬ (s.reg rs = 0x80000000 ∧ s.reg rt = 0xFFFFFFFF) →
      ∃ t hi lo, exec (.div rs rt) s = .next t ∧ WroteHiLo hi lo s t ∧
        lo.toInt * (s.reg rt).toInt + hi.toInt = (s.reg rs).toInt ∧
        hi.toInt.natAbs < (s.reg rt).toInt.natAbs ∧
        (0 ≤ (s.reg rs).toInt → 0 ≤ hi.toInt) ∧ ((s.reg rs).toInt < 0 → hi.toInt ≤ 0))

/-! ### Immediate ALU -/

/-- R170 to R173: encoding, result and frame of addi, andi, ori and xori. -/
def Obligations.ImmediateAluResults : Prop :=
  ∀ (rs rt : RegIndex) (imm : BitVec 16) (s : State),
    decode (layoutI 9 rs rt imm) = .ok (.addi rt rs imm) ∧
    decode (layoutI 12 rs rt imm) = .ok (.andi rt rs imm) ∧
    decode (layoutI 13 rs rt imm) = .ok (.ori rt rs imm) ∧
    decode (layoutI 14 rs rt imm) = .ok (.xori rt rs imm) ∧
    (∃ t, exec (.addi rt rs imm) s = .next t ∧
      WroteRegister rt (BitVec.ofInt 32 ((s.reg rs).toInt + imm.toInt)) s t) ∧
    (∃ t, exec (.andi rt rs imm) s = .next t ∧ WroteRegister rt (s.reg rs &&& (0#16 ++ imm)) s t) ∧
    (∃ t, exec (.ori rt rs imm) s = .next t ∧ WroteRegister rt (s.reg rs ||| (0#16 ++ imm)) s t) ∧
    (∃ t, exec (.xori rt rs imm) s = .next t ∧ WroteRegister rt (s.reg rs ^^^ (0#16 ++ imm)) s t)

/-! ### Control transfer -/

/-- R182: jr. -/
def Obligations.JumpRegisterTransfers : Prop :=
  ∀ (rs rt rd shamt : BitVec 5) (s : State),
    decode (layoutR rs rt rd shamt 8) = .ok (.jr rs) ∧
    ∃ t, exec (.jr rs) s = .next t ∧ MovedTo (s.reg rs) s t

/-- R183, R184: beq and bne; the offset counts words from the next instruction (R100). -/
def Obligations.EqualityBranches : Prop :=
  ∀ (rs rt : RegIndex) (imm : BitVec 16) (s : State),
    decode (layoutI 4 rs rt imm) = .ok (.beq rs rt imm) ∧
    decode (layoutI 5 rs rt imm) = .ok (.bne rs rt imm) ∧
    (∃ t, exec (.beq rs rt imm) s = .next t ∧
      MovedTo (if s.reg rs = s.reg rt then s.pc + 4 + BitVec.ofInt 32 (4 * imm.toInt) else s.pc + 4) s t) ∧
    (∃ t, exec (.bne rs rt imm) s = .next t ∧
      MovedTo (if s.reg rs = s.reg rt then s.pc + 4 else s.pc + 4 + BitVec.ofInt 32 (4 * imm.toInt)) s t)

/-- R185 to R188: the branches that compare one register with zero, signed. -/
def Obligations.SignBranches : Prop :=
  ∀ (rs rt : RegIndex) (imm : BitVec 16) (s : State),
    decode (layoutI 1 rs 1 imm) = .ok (.bgez rs imm) ∧
    decode (layoutI 7 rs rt imm) = .ok (.bgtz rs imm) ∧
    decode (layoutI 6 rs rt imm) = .ok (.blez rs imm) ∧
    decode (layoutI 1 rs 0 imm) = .ok (.bltz rs imm) ∧
    (∃ t, exec (.bgez rs imm) s = .next t ∧
      MovedTo (if 0 ≤ (s.reg rs).toInt then s.pc + 4 + BitVec.ofInt 32 (4 * imm.toInt) else s.pc + 4) s t) ∧
    (∃ t, exec (.bgtz rs imm) s = .next t ∧
      MovedTo (if 0 < (s.reg rs).toInt then s.pc + 4 + BitVec.ofInt 32 (4 * imm.toInt) else s.pc + 4) s t) ∧
    (∃ t, exec (.blez rs imm) s = .next t ∧
      MovedTo (if (s.reg rs).toInt ≤ 0 then s.pc + 4 + BitVec.ofInt 32 (4 * imm.toInt) else s.pc + 4) s t) ∧
    (∃ t, exec (.bltz rs imm) s = .next t ∧
      MovedTo (if (s.reg rs).toInt < 0 then s.pc + 4 + BitVec.ofInt 32 (4 * imm.toInt) else s.pc + 4) s t)

/-- R189, R190: jmp and jal; jal also writes the link pc + 4 to x[31], and nothing else. -/
def Obligations.AbsoluteJumps : Prop :=
  ∀ (target : BitVec 26) (s : State),
    decode (layoutJ 2 target) = .ok (.jmp target) ∧
    decode (layoutJ 3 target) = .ok (.jal target) ∧
    (∃ t, exec (.jmp target) s = .next t ∧ MovedTo (s.pc.extractLsb' 28 4 ++ target ++ 0#2) s t) ∧
    (∃ t, exec (.jal target) s = .next t ∧
      t.pc = s.pc.extractLsb' 28 4 ++ target ++ 0#2 ∧ t.reg 31 = s.pc + 4 ∧ SameRegsExcept 31 s t ∧
      SameHiLo s t ∧ SameMemory s t ∧ SameRun s t)

/-- R191 (E8): a jr to x[31] returns to the instruction after the jal, from any state that kept x[31]. -/
def Obligations.CallReturnsAfterTheJump : Prop :=
  ∀ (target : BitVec 26) (s t u : State),
    exec (.jal target) s = .next t → u.reg 31 = t.reg 31 →
    ∃ v, exec (.jr 31) u = .next v ∧ v.pc = s.pc + 4

/-- R181's consequences: an aligned PC gives an aligned target, imm 0 the next instruction, imm -1 the branch itself, and
the reach is pc + 4 - 131072 to pc + 4 + 131068. -/
def Obligations.BranchTargetReach : Prop :=
  ∀ (pc : Word) (imm : BitVec 16),
    branchTarget pc imm = pc + 4#32 + (imm.signExtend 32 <<< 2) ∧
    (pc.toNat % 4 = 0 → (branchTarget pc imm).toNat % 4 = 0) ∧
    branchTarget pc 0 = pc + 4 ∧ branchTarget pc 0xFFFF = pc ∧
    -131072 ≤ (branchTarget pc imm - (pc + 4)).toInt ∧ (branchTarget pc imm - (pc + 4)).toInt ≤ 131068

/-- R101, with its consequence for every jump that can be fetched, the spec's own derivation there from R101 and R68: the
target is the field times 4, whether the region is taken from pc or from pc + 4. -/
def Obligations.JumpTargetOfAFetchableJump : Prop :=
  ∀ (m : Memory) (pc w : Word) (target : BitVec 26),
    jumpTarget pc target = pc.extractLsb' 28 4 ++ target ++ 0#2 ∧
    (fetchWord m pc = .ok w →
      (jumpTarget pc target).toNat = 4 * target.toNat ∧ jumpTarget (pc + 4) target = jumpTarget pc target)

/-- R115 (the spec's own derivation): a label has an offset exactly when its distance from the next instruction is 4
times a number that fits the field; a taken branch then reaches the label. The target field takes a jump from the first
region to every word-aligned label below 2^28. -/
def Obligations.LabelsAreReached : Prop :=
  (∀ (a l : Word) (imm : BitVec 16),
    (labelOffset a l = some imm ↔ (l - (a + 4)).toInt = 4 * imm.toInt) ∧
    (labelOffset a l = some imm → branchTarget a imm = l)) ∧
  (∀ a l : Word, a.toNat < 2 ^ 28 → l.toNat < 2 ^ 28 → l.toNat % 4 = 0 →
    (labelTarget l).toNat = l.toNat / 4 ∧ jumpTarget a (labelTarget l) = l)

/-! ### Loads and stores -/

/-- R201: lbu. -/
def Obligations.LoadByteUnsigned : Prop :=
  ∀ (rs rt : RegIndex) (imm : BitVec 16) (s : State),
    decode (layoutI 36 rs rt imm) = .ok (.lbu rt rs imm) ∧
    effectiveAddress s rs imm = s.reg rs + BitVec.ofInt 32 imm.toInt ∧
    ((effectiveAddress s rs imm).toNat < 65532 →
      ∃ t, exec (.lbu rt rs imm) s = .next t ∧
        WroteRegister rt (0#24 ++ s.mem.read (effectiveAddress s rs imm).toNat) s t) ∧
    ((effectiveAddress s rs imm).toInt < 0 ∨ 65532 ≤ (effectiveAddress s rs imm).toInt →
      ∃ t, exec (.lbu rt rs imm) s = .next t ∧ TookFault (.accessOutOfRange (effectiveAddress s rs imm)) s t)

/-- R202 under the default byte order (R60): lw; alignment is checked before range. -/
def Obligations.LoadWordAligned : Prop :=
  ∀ (rs rt : RegIndex) (imm : BitVec 16) (s : State),
    decode (layoutI 35 rs rt imm) = .ok (.lw rt rs imm) ∧
    effectiveAddress s rs imm = s.reg rs + BitVec.ofInt 32 imm.toInt ∧
    ((effectiveAddress s rs imm).toNat % 4 = 0 → (effectiveAddress s rs imm).toNat ≤ 65528 →
      ∃ t, exec (.lw rt rs imm) s = .next t ∧
        WroteRegister rt
          (s.mem.read ((effectiveAddress s rs imm).toNat + 3) ++ s.mem.read ((effectiveAddress s rs imm).toNat + 2) ++
            s.mem.read ((effectiveAddress s rs imm).toNat + 1) ++ s.mem.read (effectiveAddress s rs imm).toNat) s t) ∧
    ((effectiveAddress s rs imm).toNat % 4 ≠ 0 →
      ∃ t, exec (.lw rt rs imm) s = .next t ∧ TookFault (.misalignedAccess (effectiveAddress s rs imm)) s t) ∧
    ((effectiveAddress s rs imm).toNat % 4 = 0 →
      (effectiveAddress s rs imm).toInt < 0 ∨ 65528 < (effectiveAddress s rs imm).toInt →
      ∃ t, exec (.lw rt rs imm) s = .next t ∧ TookFault (.accessOutOfRange (effectiveAddress s rs imm)) s t)

/-- R203: sb. -/
def Obligations.StoreByteLow : Prop :=
  ∀ (rs rt : RegIndex) (imm : BitVec 16) (s : State),
    decode (layoutI 40 rs rt imm) = .ok (.sb rt rs imm) ∧
    effectiveAddress s rs imm = s.reg rs + BitVec.ofInt 32 imm.toInt ∧
    ((effectiveAddress s rs imm).toNat < 65532 →
      ∃ t, exec (.sb rt rs imm) s = .next t ∧
        Stored (effectiveAddress s rs imm).toNat [(s.reg rt).extractLsb' 0 8] s t) ∧
    ((effectiveAddress s rs imm).toInt < 0 ∨ 65532 ≤ (effectiveAddress s rs imm).toInt →
      ∃ t, exec (.sb rt rs imm) s = .next t ∧ TookFault (.accessOutOfRange (effectiveAddress s rs imm)) s t)

/-- R204 under the default byte order (R60): sw; alignment is checked before range, and a faulting sw writes no byte. -/
def Obligations.StoreWordAligned : Prop :=
  ∀ (rs rt : RegIndex) (imm : BitVec 16) (s : State),
    decode (layoutI 43 rs rt imm) = .ok (.sw rt rs imm) ∧
    effectiveAddress s rs imm = s.reg rs + BitVec.ofInt 32 imm.toInt ∧
    ((effectiveAddress s rs imm).toNat % 4 = 0 → (effectiveAddress s rs imm).toNat ≤ 65528 →
      ∃ t, exec (.sw rt rs imm) s = .next t ∧
        Stored (effectiveAddress s rs imm).toNat
          [(s.reg rt).extractLsb' 0 8, (s.reg rt).extractLsb' 8 8, (s.reg rt).extractLsb' 16 8,
            (s.reg rt).extractLsb' 24 8] s t) ∧
    ((effectiveAddress s rs imm).toNat % 4 ≠ 0 →
      ∃ t, exec (.sw rt rs imm) s = .next t ∧ TookFault (.misalignedAccess (effectiveAddress s rs imm)) s t) ∧
    ((effectiveAddress s rs imm).toNat % 4 = 0 →
      (effectiveAddress s rs imm).toInt < 0 ∨ 65528 < (effectiveAddress s rs imm).toInt →
      ∃ t, exec (.sw rt rs imm) s = .next t ∧ TookFault (.accessOutOfRange (effectiveAddress s rs imm)) s t)

/-- R205: sw then lw, and sb then lbu, at one address give back what was stored, whatever registers address it. -/
def Obligations.StoreThenLoadRoundTrip : Prop :=
  ∀ (rt rs rd rb : RegIndex) (imm disp : BitVec 16) (s : State),
    ((effectiveAddress s rs imm).toNat % 4 = 0 → (effectiveAddress s rs imm).toNat ≤ 65528 →
      ∃ t, exec (.sw rt rs imm) s = .next t ∧
        (effectiveAddress t rb disp = effectiveAddress s rs imm →
          ∃ u, exec (.lw rd rb disp) t = .next u ∧ WroteRegister rd (s.reg rt) t u)) ∧
    ((effectiveAddress s rs imm).toNat < 65532 →
      ∃ t, exec (.sb rt rs imm) s = .next t ∧
        (effectiveAddress t rb disp = effectiveAddress s rs imm →
          ∃ u, exec (.lbu rd rb disp) t = .next u ∧
            WroteRegister rd (0#24 ++ (s.reg rt).extractLsb' 0 8) t u))

/-- R62, under the default byte order (R60): the byte view and the word view read the same bytes. -/
def Obligations.MixedWidthAccess : Prop :=
  ∀ (m m' : Memory) (a : Word) (v old : Word) (b : Byte) (k : Nat), k < 4 →
    (writeWord m a v = .ok m' → readByte m' (a + BitVec.ofNat 32 k) = .ok (v.extractLsb' (8 * k) 8)) ∧
    (readWord m a = .ok old → writeByte m (a + BitVec.ofNat 32 k) b = .ok m' →
      ∃ new, readWord m' a = .ok new ∧ new.extractLsb' (8 * k) 8 = b ∧
        ∀ j < 4, j ≠ k → new.extractLsb' (8 * j) 8 = old.extractLsb' (8 * j) 8)

/-- R77 (R281): a sw to the address of the next instruction is what the next step fetches. -/
def Obligations.StoreIsSeenByTheNextFetch : Prop :=
  ∀ (rt rs : RegIndex) (imm : BitVec 16) (s : State),
    s.pc.toNat % 4 = 0 → s.pc.toNat ≤ 65524 → effectiveAddress s rs imm = s.pc + 4 →
    ∃ t, exec (.sw rt rs imm) s = .next t ∧ fetchWord t.mem t.pc = .ok (s.reg rt)

/-! ### Syscalls -/

/-- R216, R250: exit; the exit status of the run is 0 (R134). -/
def Obligations.ExitHalts : Prop :=
  decode (layoutS 10) = .ok .exit ∧ exitStatus .halted = some 0 ∧
  ∀ s : State, ∃ t, exec .exit s = .next t ∧ EndedWith .halted s t ∧ step t = .fault .runEnded

/-- R217, R218: pstr writes the whole string at x[4] and returns its length, or the host's sentinel; where no 0 byte
ends the string inside memory it faults before any output, at the first address outside memory. -/
def Obligations.PrintString : Prop :=
  decode (layoutS 4) = .ok .pstr ∧
  ∀ s : State,
    (∀ bytes : List Byte, StringAt s.mem (s.reg 4).toNat bytes →
      ∃ t, exec .pstr s = .next t ∧
        DidIo (.wrote (.writeBytes bytes) (Config.hostWrite (ioHistory s.events) (.writeBytes bytes)))
          (match Config.hostWrite (ioHistory s.events) (.writeBytes bytes) with
            | .success => BitVec.ofNat 32 bytes.length
            | .failed sentinel => sentinel) s t) ∧
    ((s.reg 4).toNat < 65532 → (∀ a, (s.reg 4).toNat ≤ a → a < 65532 → s.mem.read a ≠ 0) →
      ∃ t, exec .pstr s = .next t ∧ TookFault (.accessOutOfRange 65532) s t) ∧
    (65532 ≤ (s.reg 4).toNat → ∃ t, exec .pstr s = .next t ∧ TookFault (.accessOutOfRange (s.reg 4)) s t)

/-- R219: pch. -/
def Obligations.PrintChar : Prop :=
  decode (layoutS 11) = .ok .pch ∧
  ∀ s : State, ∃ t, exec .pch s = .next t ∧
    DidIo
      (.wrote (.writeByte ((s.reg 4).extractLsb' 0 8))
        (Config.hostWrite (ioHistory s.events) (.writeByte ((s.reg 4).extractLsb' 0 8))))
      (match Config.hostWrite (ioHistory s.events) (.writeByte ((s.reg 4).extractLsb' 0 8)) with
        | .success => 0#24 ++ (s.reg 4).extractLsb' 0 8
        | .failed sentinel => sentinel) s t

/-- R220, R223: rch. A read the host answers completes with the byte or the end marker; one it never answers leaves the core
blocked, and the run stuck (I16). The answer is a free value (log entry 4), and the form of the blocked core is the model's
(log entry 6). -/
def Obligations.ReadChar : Prop :=
  decode (layoutS 12) = .ok .rch ∧
  ∀ s : State, ∃ t, exec .rch s = .next t ∧
    match Config.hostRead (ioHistory s.events) with
    | some (.byte b) => DidIo (.read (.byte b)) (0#24 ++ b) s t
    | some .endOfInput => DidIo (.read .endOfInput) 0xFFFFFFFF s t
    | none => BlockedInRead s t

/-- R221, R222: stra sets and notr clears the trace flag, whatever it was, and each falls through with no other effect. -/
def Obligations.TraceSwitches : Prop :=
  decode (layoutS 2046) = .ok .stra ∧ decode (layoutS 2047) = .ok .notr ∧
  ∀ s : State,
    (∃ t, exec .stra s = .next t ∧ t.trace = true ∧ t.pc = s.pc + 4 ∧ SameRegs s t ∧ SameHiLo s t ∧
      SameMemory s t ∧ t.status = s.status ∧ t.blocked = s.blocked ∧ t.events = s.events) ∧
    (∃ t, exec .notr s = .next t ∧ t.trace = false ∧ t.pc = s.pc + 4 ∧ SameRegs s t ∧ SameHiLo s t ∧
      SameMemory s t ∧ t.status = s.status ∧ t.blocked = s.blocked ∧ t.events = s.events)

/-! ### Rules about the whole machine -/

/-- R35: an instruction changes no general register but the one its row of the table names. -/
def Obligations.RegisterWriters : Prop :=
  ∀ (i : Instr) (s t : State) (r : RegIndex),
    exec i s = .next t → t.reg r ≠ s.reg r → writtenReg i = some r

/-- R36 (the spec's own derivation): what a register outside an instruction's row of the table holds makes no difference to
anything it does. For pstr, pch and rch this rests on one host answering both executions alike (log entry 4). -/
def Obligations.RegisterReaders : Prop :=
  ∀ (i : Instr) (s : State) (r : RegIndex) (v : Word), r ∉ readRegs i →
    ∃ t u, exec i s = .next t ∧ exec i (s.setReg r v) = .next u ∧
      u.pc = t.pc ∧ u.hi = t.hi ∧ u.lo = t.lo ∧ u.mem = t.mem ∧ u.trace = t.trace ∧ u.status = t.status ∧
      u.blocked = t.blocked ∧ u.events = t.events ∧ SameRegsExcept r t u ∧
      (u.reg r = t.reg r ∨ (u.reg r = v ∧ t.reg r = s.reg r))

/-- R37, R38: only mul and div write HI and LO, and only mfhi and mflo read them. For pstr, pch and rch the second rests on
one host answering both executions alike (log entry 4). -/
def Obligations.HiLoWritersAndReaders : Prop :=
  (∀ (i : Instr) (s t : State), exec i s = .next t → t.hi ≠ s.hi ∨ t.lo ≠ s.lo →
    ∃ rs rt, i = .mul rs rt ∨ i = .div rs rt) ∧
  (∀ (i : Instr) (s : State) (hi lo : Word), (∀ rd, i ≠ .mfhi rd ∧ i ≠ .mflo rd) →
    ∃ t u, exec i s = .next t ∧ exec i (s.setHiLo hi lo) = .next u ∧
      u.pc = t.pc ∧ u.regs = t.regs ∧ u.mem = t.mem ∧ u.trace = t.trace ∧ u.status = t.status ∧
      u.blocked = t.blocked ∧ u.events = t.events ∧ ((u.hi = t.hi ∧ u.lo = t.lo) ∨ (u.hi = hi ∧ u.lo = lo ∧ t.hi = s.hi ∧ t.lo = s.lo)))

/-- R40: the PC becomes the target of an explicit transfer, or pc + 4; a step that ends the run leaves it, and so does one
that stays in its read for ever (I16, log entry 6). -/
def Obligations.PcWriters : Prop :=
  ∀ (i : Instr) (s t : State), exec i s = .next t → s.status = .running → s.blocked = false →
    match transferTarget i s with
    | some a => t.pc = a
    | none => if t.status = .running ∧ t.blocked = false then t.pc = s.pc + 4 else t.pc = s.pc

/-- R69 with R203 and R204, R44, and R45 with R216 and R240: only sb and sw change memory, only stra and notr the trace flag;
the status of a running machine becomes Halted by exit alone, and Faulted by div, lbu, lw, sb, sw or pstr alone. Only rch
can block the core (R220; log entry 6). -/
def Obligations.WriteAuthority : Prop :=
  ∀ (i : Instr) (s t : State), exec i s = .next t →
    ((∃ a, t.mem.read a ≠ s.mem.read a) → ∃ rt rs imm, i = .sb rt rs imm ∨ i = .sw rt rs imm) ∧
    (t.trace ≠ s.trace → i = .stra ∨ i = .notr) ∧
    (i ≠ .rch → t.blocked = s.blocked) ∧
    (s.status = .running → t.status ≠ .running →
      (t.status = .halted ∧ i = .exit) ∨
      (∃ record, t.status = .faulted record) ∧
        ((∃ rs rt, i = .div rs rt) ∨ i = .pstr ∨
          ∃ rt rs imm, i = .lbu rt rs imm ∨ i = .lw rt rs imm ∨ i = .sb rt rs imm ∨ i = .sw rt rs imm))

/-- R44, R258: tracing never changes architectural state. Two runs from states that differ only in tracing stay so, for any
number of steps. For the host's answers this is the model's choice: one host answers both runs alike (log entry 4), and its
answers do not depend on the trace events (log entry 24). -/
def Obligations.TracingHasNoArchitecturalEffect : Prop :=
  ∀ (n : Nat) (s s' t : State), SameButTracing s s' → core.run n s = .next t →
    ∃ t', core.run n s' = .next t' ∧ SameButTracing t t'

/-- R109: the word 0 is sll $0, $0, 0, and running it changes nothing but the PC. -/
def Obligations.ZeroWordIsANoOp : Prop :=
  decode 0 = .ok (.sll 0 0 0) ∧ ∀ s : State, exec (.sll 0 0 0) s = .next (s.setPc (s.pc + 4))

/-- R278 (the spec's own derivation): a run through zero-filled memory advances 4 bytes a step until pc = 65532, where the
fetch faults; nothing but the PC has changed, and a traced run has emitted one trace event a step and none for the fault. -/
def Obligations.RunningOffTheEnd : Prop :=
  ∀ s : State, s.status = .running → s.blocked = false → s.pc.toNat % 4 = 0 → s.pc.toNat ≤ 65532 →
    (∀ a, s.pc.toNat ≤ a → s.mem.read a = 0) →
    ∃ t u later,
      core.run ((65532 - s.pc.toNat) / 4) s = .next t ∧
      t = { s with pc := 65532, events := later ++ s.events } ∧
      ioHistory later = [] ∧ noEnd later = true ∧
      (traceHistory later).length = (if s.trace then (65532 - s.pc.toNat) / 4 else 0) ∧
      step t = .next u ∧ EndedWith (.faulted { pc := 65532, word := none, cause := .fetchOutOfRange }) t u

/-! ### Reset -/

/-- R272, R255: the checks L1 to L7 in order, the first that fails ending the reset; L7 is about each word's address. That a
length is read unsigned, one with bit 31 set included, is the model's choice (log entry 26). -/
def Obligations.LoadTimeValidation : Prop :=
  ∀ im : Image,
    let h := im.header
    let l1 := h.textStart.toNat % 4 = 0
    let l2 := h.textStart.toInt ≤ h.dataStart.toInt
    let l3 := h.dataStart.toNat % 4 = 0
    let l4 := h.stackBottom.toNat % 4 = 0
    let l5 := h.dataStart.toInt ≤ h.stackBottom.toInt
    let l6 := h.textLen.toNat % 4 = 0 ∧ h.dataLen.toNat % 4 = 0
    let fits := fun a : Word => 0 ≤ a.toInt ∧ a.toInt + 4 ≤ 65532
    let l7 := (∀ i, i < h.textLen.toNat / 4 → fits (h.textStart + BitVec.ofNat 32 (4 * i))) ∧
      (∀ i, i < h.dataLen.toNat / 4 → fits (h.dataStart + BitVec.ofNat 32 (4 * i)))
    ((boot im).status = .loadFailed .misalignedTextStart ↔ ¬ l1) ∧
    ((boot im).status = .loadFailed .textBeyondData ↔ l1 ∧ ¬ l2) ∧
    ((boot im).status = .loadFailed .misalignedDataStart ↔ l1 ∧ l2 ∧ ¬ l3) ∧
    ((boot im).status = .loadFailed .misalignedStackBottom ↔ l1 ∧ l2 ∧ l3 ∧ ¬ l4) ∧
    ((boot im).status = .loadFailed .stackBelowData ↔ l1 ∧ l2 ∧ l3 ∧ l4 ∧ ¬ l5) ∧
    ((boot im).status = .loadFailed .segmentLengthNotWords ↔ l1 ∧ l2 ∧ l3 ∧ l4 ∧ l5 ∧ ¬ l6) ∧
    ((boot im).status = .loadFailed .segmentOutOfMemory ↔ l1 ∧ l2 ∧ l3 ∧ l4 ∧ l5 ∧ l6 ∧ ¬ l7) ∧
    ((boot im).status = .running ↔ l1 ∧ l2 ∧ l3 ∧ l4 ∧ l5 ∧ l6 ∧ l7)

/-- R274, R275: what the reset procedure leaves in the registers and the flag for a header that passes. -/
def Obligations.RegistersAfterReset : Prop :=
  ∀ im : Image, validate im.header = none →
    (boot im).pc = im.header.textStart ∧
    (∀ r : RegIndex, (boot im).reg r =
      if r = 28 then im.header.dataStart
      else if r = 29 ∨ r = 30 then im.header.stackBottom
      else 0) ∧
    (boot im).hi = 0 ∧ (boot im).lo = 0 ∧ (boot im).trace = false ∧ (boot im).status = .running

/-- R273: the memory image after reset, when the loader delivers as many words as the header says: a fetch or lw of the
data words' addresses, and of the text words' where no data word overlaps them, gives the words as loaded; every other
byte is 0. -/
def Obligations.MemoryAfterReset : Prop :=
  ∀ im : Image, validate im.header = none →
    im.text.length = im.header.textLen.toNat / 4 → im.data.length = im.header.dataLen.toNat / 4 →
    (∀ i (h : i < im.data.length),
      fetchWord (boot im).mem (im.header.dataStart + BitVec.ofNat 32 (4 * i)) = .ok im.data[i] ∧
      readWord (boot im).mem (im.header.dataStart + BitVec.ofNat 32 (4 * i)) = .ok im.data[i]) ∧
    (∀ i (h : i < im.text.length),
      im.header.textStart.toNat + 4 * i + 4 ≤ im.header.dataStart.toNat ∨
        im.header.dataStart.toNat + 4 * im.data.length ≤ im.header.textStart.toNat + 4 * i →
      fetchWord (boot im).mem (im.header.textStart + BitVec.ofNat 32 (4 * i)) = .ok im.text[i] ∧
      readWord (boot im).mem (im.header.textStart + BitVec.ofNat 32 (4 * i)) = .ok im.text[i]) ∧
    (∀ a, (a < im.header.textStart.toNat ∨ im.header.textStart.toNat + 4 * im.text.length ≤ a) →
      (a < im.header.dataStart.toNat ∨ im.header.dataStart.toNat + 4 * im.data.length ≤ a) →
      (boot im).mem.read a = 0)

/-- R270, R272, R257 (E11): a header that fails a check ends in LoadFailed, reported to the host with a nonzero exit
status; no instruction runs and no output was produced. -/
def Obligations.FailedLoadRunsNothing : Prop :=
  ∀ (im : Image) (e : LoadError), validate im.header = some e →
    (boot im).status = .loadFailed e ∧ (boot im).events = [.ended (.loadFailed e)] ∧
    step (boot im) = .fault .runEnded ∧ ∃ n, exitStatus (boot im).status = some n ∧ n ≠ 0

/-- The model's choice of log entry 7: `State.reset` is what the reset procedure leaves for the default header of
95_test_vectors.md part 3 with no words. -/
def Obligations.ResetIsTheBareBoot : Prop := State.reset = boot bareImage

/-- R134: which final statuses give which exit status. -/
def Obligations.ExitStatusOfARun : Prop :=
  ∀ st : RunStatus,
    (exitStatus st = some 0 ↔ st = .halted) ∧
    ((∃ n, exitStatus st = some n) ↔ st.terminal = true)
end

