-- ==== Sys2Proof/Laws/Encoding.lean ====
section
/-!
SUPPORT. The fields of an assembled word, and what the decoder's answers look like.
-/

namespace Sys2Proof

section fields

variable (m : OpcodeMap) (op f : BitVec 6) (rs rt rd sh : BitVec 5) (imm : BitVec 16) (t : BitVec 26) (c : BitVec 20)

@[simp] theorem fieldFunct_wordR : fieldFunct (wordR m f rs rt rd sh) = f := by
  rw [fieldFunct, wordR, BitVec.extractLsb'_append_eq_of_add_le (by decide), BitVec.extractLsb'_eq_self]

@[simp] theorem fieldShamt_wordR : fieldShamt (wordR m f rs rt rd sh) = sh := by
  rw [fieldShamt, wordR, BitVec.extractLsb'_append_eq_of_le (by decide), BitVec.extractLsb'_append_eq_of_add_le (by decide), BitVec.extractLsb'_eq_self]

@[simp] theorem fieldRd_wordR : fieldRd (wordR m f rs rt rd sh) = rd := by
  rw [fieldRd, wordR, BitVec.extractLsb'_append_eq_of_le (by decide), BitVec.extractLsb'_append_eq_of_le (by decide), BitVec.extractLsb'_append_eq_of_add_le (by decide), BitVec.extractLsb'_eq_self]

@[simp] theorem fieldRt_wordR : fieldRt (wordR m f rs rt rd sh) = rt := by
  rw [fieldRt, wordR, BitVec.extractLsb'_append_eq_of_le (by decide), BitVec.extractLsb'_append_eq_of_le (by decide), BitVec.extractLsb'_append_eq_of_le (by decide), BitVec.extractLsb'_append_eq_of_add_le (by decide), BitVec.extractLsb'_eq_self]

@[simp] theorem fieldRs_wordR : fieldRs (wordR m f rs rt rd sh) = rs := by
  rw [fieldRs, wordR, BitVec.extractLsb'_append_eq_of_le (by decide), BitVec.extractLsb'_append_eq_of_le (by decide), BitVec.extractLsb'_append_eq_of_le (by decide), BitVec.extractLsb'_append_eq_of_le (by decide), BitVec.extractLsb'_append_eq_of_add_le (by decide), BitVec.extractLsb'_eq_self]

@[simp] theorem fieldOp_wordR : fieldOp (wordR m f rs rt rd sh) = m.special := by
  rw [fieldOp, wordR, BitVec.extractLsb'_append_eq_of_le (by decide), BitVec.extractLsb'_append_eq_of_le (by decide), BitVec.extractLsb'_append_eq_of_le (by decide), BitVec.extractLsb'_append_eq_of_le (by decide), BitVec.extractLsb'_append_eq_of_le (by decide), BitVec.extractLsb'_eq_self]

@[simp] theorem fieldImm_wordI : fieldImm (wordI op rs rt imm) = imm := by
  rw [fieldImm, wordI, BitVec.extractLsb'_append_eq_of_add_le (by decide), BitVec.extractLsb'_eq_self]

@[simp] theorem fieldRt_wordI : fieldRt (wordI op rs rt imm) = rt := by
  rw [fieldRt, wordI, BitVec.extractLsb'_append_eq_of_le (by decide), BitVec.extractLsb'_append_eq_of_add_le (by decide), BitVec.extractLsb'_eq_self]

@[simp] theorem fieldRs_wordI : fieldRs (wordI op rs rt imm) = rs := by
  rw [fieldRs, wordI, BitVec.extractLsb'_append_eq_of_le (by decide), BitVec.extractLsb'_append_eq_of_le (by decide), BitVec.extractLsb'_append_eq_of_add_le (by decide), BitVec.extractLsb'_eq_self]

@[simp] theorem fieldOp_wordI : fieldOp (wordI op rs rt imm) = op := by
  rw [fieldOp, wordI, BitVec.extractLsb'_append_eq_of_le (by decide), BitVec.extractLsb'_append_eq_of_le (by decide), BitVec.extractLsb'_append_eq_of_le (by decide), BitVec.extractLsb'_eq_self]

@[simp] theorem fieldTarget_wordJ : fieldTarget (wordJ op t) = t := by
  rw [fieldTarget, wordJ, BitVec.extractLsb'_append_eq_of_add_le (by decide), BitVec.extractLsb'_eq_self]

@[simp] theorem fieldOp_wordJ : fieldOp (wordJ op t) = op := by
  rw [fieldOp, wordJ, BitVec.extractLsb'_append_eq_of_le (by decide), BitVec.extractLsb'_eq_self]

@[simp] theorem fieldFunct_wordS : fieldFunct (wordS m c) = m.syscall := by
  rw [fieldFunct, wordS, BitVec.extractLsb'_append_eq_of_add_le (by decide), BitVec.extractLsb'_eq_self]

@[simp] theorem fieldCode_wordS : fieldCode (wordS m c) = c := by
  rw [fieldCode, wordS, BitVec.extractLsb'_append_eq_of_le (by decide), BitVec.extractLsb'_append_eq_of_add_le (by decide), BitVec.extractLsb'_eq_self]

@[simp] theorem fieldOp_wordS : fieldOp (wordS m c) = m.special := by
  rw [fieldOp, wordS, BitVec.extractLsb'_append_eq_of_le (by decide), BitVec.extractLsb'_append_eq_of_le (by decide), BitVec.extractLsb'_eq_self]

end fields

/-- A word is its R-format fields side by side (R92). -/
theorem word_eq_fieldsR (w : Word) :
    w = fieldOp w ++ fieldRs w ++ fieldRt w ++ fieldRd w ++ fieldShamt w ++ fieldFunct w := by
  apply BitVec.eq_of_getLsbD_eq
  intro i hi
  simp only [fieldOp, fieldRs, fieldRt, fieldRd, fieldShamt, fieldFunct, BitVec.getLsbD_append,
    BitVec.getLsbD_extractLsb']
  interval_cases i <;> rfl

/-- A word is its I-format fields side by side (R93). -/
theorem word_eq_fieldsI (w : Word) : w = fieldOp w ++ fieldRs w ++ fieldRt w ++ fieldImm w := by
  apply BitVec.eq_of_getLsbD_eq
  intro i hi
  simp only [fieldOp, fieldRs, fieldRt, fieldImm, BitVec.getLsbD_append, BitVec.getLsbD_extractLsb']
  interval_cases i <;> rfl

/-- A word is its J-format fields side by side (R94). -/
theorem word_eq_fieldsJ (w : Word) : w = fieldOp w ++ fieldTarget w := by
  apply BitVec.eq_of_getLsbD_eq
  intro i hi
  simp only [fieldOp, fieldTarget, BitVec.getLsbD_append, BitVec.getLsbD_extractLsb']
  interval_cases i <;> rfl

/-- A word is its S-format fields side by side (R95). -/
theorem word_eq_fieldsS (w : Word) : w = fieldOp w ++ fieldCode w ++ fieldFunct w := by
  apply BitVec.eq_of_getLsbD_eq
  intro i hi
  simp only [fieldOp, fieldCode, fieldFunct, BitVec.getLsbD_append, BitVec.getLsbD_extractLsb']
  interval_cases i <;> rfl

/-! ### The decoder's tables -/

section tables

variable {n : Nat} (kind : IllegalKind) (code : BitVec n) (rows : List (BitVec n × Instr))

theorem mem_of_select {i : Instr} (h : select kind code rows = .ok i) : (code, i) ∈ rows := by
  induction rows with
  | nil => simp [select] at h
  | cons row rows ih =>
    by_cases hc : code = row.1
    · rw [select, if_pos hc] at h
      cases h
      simp [hc]
    · rw [select, if_neg hc] at h
      exact List.mem_cons_of_mem _ (ih h)

/-- In a table that lists no code twice, a code selects what it is listed with. -/
theorem select_eq_ok_iff (hd : (rows.map Prod.fst).Nodup) (i : Instr) :
    select kind code rows = .ok i ↔ (code, i) ∈ rows := by
  refine ⟨mem_of_select kind code rows, fun h => ?_⟩
  induction rows with
  | nil => simp at h
  | cons row rows ih =>
    obtain ⟨fresh, hd⟩ := List.nodup_cons.mp hd
    by_cases hc : code = row.1
    · rcases List.mem_cons.mp h with rfl | h
      · simp [select]
      · exact absurd (hc ▸ List.mem_map_of_mem (f := Prod.fst) h) fresh
    · rw [select, if_neg hc]
      refine ih hd ((List.mem_cons.mp h).resolve_left fun e => hc ?_)
      rw [← e]

/-- A code is refused exactly when the table does not list it, and then with the table's kind. -/
theorem select_eq_error_iff (k : IllegalKind) :
    select kind code rows = .error k ↔ k = kind ∧ code ∉ rows.map Prod.fst := by
  induction rows with
  | nil => simp [select, eq_comm]
  | cons row rows ih =>
    by_cases hc : code = row.1
    · simp [select, hc]
    · simp [select, hc, ih]

end tables

/-- The decoder answers only instructions some word stands for (R102). -/
theorem wellFormed_of_decodeWith {m : OpcodeMap} {w : Word} {i : Instr} (h : decodeWith m w = .ok i) :
    i.wellFormed = true := by
  have bound := (fieldShamt w).isLt
  unfold decodeWith at h
  split at h
  · have := mem_of_select _ _ _ h
    simp [syscallTable] at this
    rcases this with h | h | h | h | h | h <;> simp [h.2, Instr.wellFormed]
  · have := mem_of_select _ _ _ h
    simp [registerTable] at this
    rcases this with h | h | h | h | h | h | h | h | h | h | h | h | h <;>
      simp [h.2, Instr.wellFormed, shamtFits] <;> omega
  · have := mem_of_select _ _ _ h
    simp [jumpTable] at this
    rcases this with h | h <;> simp [h.2, Instr.wellFormed]
  · split at h
    · have := mem_of_select _ _ _ h
      simp [regimmTable] at this
      rcases this with h | h <;> simp [h.2, Instr.wellFormed]
    · have := mem_of_select _ _ _ h
      simp [immediateTable] at this
      rcases this with h | h | h | h | h | h | h | h | h | h | h | h <;> simp [h.2, Instr.wellFormed]

end Sys2Proof
end

