-- ==== Sys2Proof/Laws/Memory.lean ====
section
/-!
SUPPORT. The laws of memory: read after write, every operation keeps the canonical form, and what the five operations of
the memory interface do.
-/

namespace Sys2Proof.Machine

variable {m : Memory} {a c : Nat} {b : Byte}

theorem Memory.read_nil (a : Nat) : Memory.read [] a = unlistedByte := rfl

theorem Memory.read_filter (m : Memory) (a c : Nat) :
    Memory.read (m.filter fun x => x.1 != a) c = if c = a then unlistedByte else m.read c := by
  induction m with
  | nil => simp [Memory.read]
  | cons x m ih =>
    obtain ⟨k, v⟩ := x
    by_cases hk : k = a
    · subst hk
      by_cases hc : c = k
      · simp_all
      · have : ¬ k = c := fun e => hc e.symm
        simp_all [Memory.read]
    · by_cases hkc : k = c
      · have : ¬ c = a := hkc ▸ hk
        simp_all [Memory.read]
      · simp_all [Memory.read]

theorem Memory.read_insert (m : Memory) (a c : Nat) (b : Byte) (fresh : ∀ x ∈ m, x.1 ≠ a) :
    Memory.read (Memory.insert m (a, b)) c = if c = a then b else m.read c := by
  induction m with
  | nil =>
    by_cases hc : c = a
    · simp [Memory.insert, Memory.read, hc]
    · have : ¬ a = c := fun e => hc e.symm
      simp [Memory.insert, Memory.read, hc, this]
  | cons x m ih =>
    obtain ⟨k, v⟩ := x
    have hk : k ≠ a := fresh (k, v) (by simp)
    have ih := ih fun y hy => fresh y (by simp [hy])
    by_cases hlt : a < k
    · by_cases hc : c = a
      · simp [Memory.insert, hlt, Memory.read, hc]
      · have : ¬ a = c := fun e => hc e.symm
        simp [Memory.insert, hlt, Memory.read, hc, this]
    · by_cases hkc : k = c
      · subst hkc
        simp [Memory.insert, hlt, Memory.read, hk]
      · simp [Memory.insert, hlt, Memory.read, hkc, ih]

/-- Reading any byte after writing one: for every memory, in canonical form or not. -/
theorem Memory.read_write (m : Memory) (a c : Nat) (b : Byte) :
    (m.write a b).read c = if c = a then b else m.read c := by
  unfold Memory.write
  by_cases hb : b = unlistedByte
  · simp [hb, Memory.read_filter]
  · simp only [hb, if_false]
    rw [Memory.read_insert]
    · by_cases hc : c = a <;> simp [hc, Memory.read_filter]
    · simp

@[simp] theorem Memory.read_write_same (m : Memory) (a : Nat) (b : Byte) : (m.write a b).read a = b := by
  simp [Memory.read_write]

theorem Memory.read_write_other (h : c ≠ a) : (m.write a b).read c = m.read c := by
  simp [Memory.read_write, h]

/-! ### The canonical form is kept -/

theorem Memory.wf_nil : Memory.wf [] := by simp [Memory.wf]

/-- The memory after reset is in canonical form. -/
theorem State.reset_mem_wf : State.reset.mem.wf := Memory.wf_nil

theorem Memory.mem_insert (m : Memory) (x y : Host.Cell) : y ∈ Memory.insert m x ↔ y = x ∨ y ∈ m := by
  induction m with
  | nil => simp [Memory.insert]
  | cons z m ih =>
    by_cases h : x.1 < z.1
    · simp [Memory.insert, h]
    · simp only [Memory.insert, h, if_false, List.mem_cons, ih]
      tauto

theorem Memory.sorted_insert (m : Memory) (x : Host.Cell) (hm : m.Pairwise fun c d => c.1 < d.1)
    (fresh : ∀ y ∈ m, y.1 ≠ x.1) : (Memory.insert m x).Pairwise fun c d => c.1 < d.1 := by
  induction m with
  | nil => simp [Memory.insert]
  | cons z m ih =>
    obtain ⟨hz, hm'⟩ := List.pairwise_cons.mp hm
    by_cases h : x.1 < z.1
    · simp only [Memory.insert, h, if_true]
      refine List.pairwise_cons.mpr ⟨fun y hy => ?_, hm⟩
      rcases List.mem_cons.mp hy with rfl | hy
      · exact h
      · exact h.trans (hz y hy)
    · simp only [Memory.insert, h, if_false]
      refine List.pairwise_cons.mpr ⟨fun y hy => ?_, ih hm' fun y hy => fresh y (by simp [hy])⟩
      rcases (Memory.mem_insert m x y).mp hy with rfl | hy
      · have := fresh z (by simp)
        omega
      · exact hz y hy

/-- A write inside memory keeps the canonical form. -/
theorem Memory.wf_write (hm : m.wf) (ha : a < memBytes) : (m.write a b).wf := by
  obtain ⟨hs, hc⟩ := hm
  have hsort : (m.filter fun c => c.1 != a).Pairwise fun c d => c.1 < d.1 := hs.sublist List.filter_sublist
  unfold Memory.write
  by_cases hb : b = unlistedByte
  · simp only [hb, if_true]
    exact ⟨hsort, fun c hc' => hc c (List.mem_of_mem_filter hc')⟩
  · simp only [hb, if_false]
    refine ⟨Memory.sorted_insert _ _ hsort fun y hy => ?_, fun c hc' => ?_⟩
    · simpa using (List.mem_filter.mp hy).2
    · rcases (Memory.mem_insert _ _ c).mp hc' with rfl | hc'
      · exact ⟨hb, ha⟩
      · exact hc c (List.mem_of_mem_filter hc')

theorem Memory.wf_putWord (v : Word) (hm : m.wf) (ha : a + 4 ≤ memBytes) : (m.putWord a v).wf :=
  Memory.wf_write (Memory.wf_write (Memory.wf_write (Memory.wf_write hm (by omega)) (by omega)) (by omega)) (by omega)

/-- Memories in canonical form that read the same at every address are the same data. -/
theorem Memory.ext_read {m n : Memory} (hm : m.wf) (hn : n.wf) (h : ∀ a, m.read a = n.read a) : m = n := by
  induction m generalizing n with
  | nil =>
    cases n with
    | nil => rfl
    | cons d n => have := h d.1; simp [Memory.read] at this; exact absurd this.symm (hn.2 d (by simp)).1
  | cons c m ih =>
    obtain ⟨hcm, hm'⟩ := List.pairwise_cons.mp hm.1
    have unlisted : ∀ (l : Memory) (k : Nat), (∀ x ∈ l, k < x.1) → l.read k = unlistedByte := by
      intro l k hl
      induction l with
      | nil => rfl
      | cons x l ihl =>
        have hx := hl x (by simp)
        have : ¬ x.1 = k := by omega
        simp only [Memory.read, this, if_false]
        exact ihl fun y hy => hl y (by simp [hy])
    cases n with
    | nil => have := h c.1; simp [Memory.read] at this; exact absurd this (hm.2 c (by simp)).1
    | cons d n =>
      obtain ⟨hdn, hn'⟩ := List.pairwise_cons.mp hn.1
      have hk : c.1 = d.1 := by
        rcases lt_trichotomy c.1 d.1 with hlt | heq | hgt
        · have e := h c.1
          rw [unlisted (d :: n) c.1 (by
            intro x hx
            rcases List.mem_cons.mp hx with rfl | hx
            · exact hlt
            · exact hlt.trans (hdn x hx))] at e
          simp [Memory.read] at e
          exact absurd e (hm.2 c (by simp)).1
        · exact heq
        · have e := h d.1
          rw [unlisted (c :: m) d.1 (by
            intro x hx
            rcases List.mem_cons.mp hx with rfl | hx
            · exact hgt
            · exact hgt.trans (hcm x hx))] at e
          simp [Memory.read] at e
          exact absurd e.symm (hn.2 d (by simp)).1
      have hv : c.2 = d.2 := by
        have e := h c.1
        simpa [Memory.read, hk] using e
      have hcd : c = d := Prod.ext hk hv
      subst hcd
      have hrest : ∀ a, Memory.read m a = Memory.read n a := by
        intro a
        by_cases ha : c.1 = a
        · rw [← ha, unlisted m c.1 hcm, unlisted n c.1 hdn]
        · have e := h a
          simpa [Memory.read, ha] using e
      rw [ih ⟨hm', fun x hx => hm.2 x (by simp [hx])⟩ ⟨hn', fun x hx => hn.2 x (by simp [hx])⟩ hrest]

/-! ### Words -/

/-- Reading any byte after writing a word. -/
theorem Memory.read_putWord (m : Memory) (a c : Nat) (v : Word) :
    (m.putWord a v).read c =
      if a ≤ c ∧ c < a + 4 then byteOfWord byteOrder v (c - a) else m.read c := by
  unfold Memory.putWord
  simp only [Memory.read_write]
  by_cases h3 : c = a + 3
  · subst h3; simp
  by_cases h2 : c = a + 2
  · subst h2; simp
  by_cases h1 : c = a + 1
  · subst h1; simp
  by_cases h0 : c = a
  · subst h0; simp
  · have : ¬ (a ≤ c ∧ c < a + 4) := by omega
    simp [h0, h1, h2, h3, this]

theorem wordOfBytes_byteOfWord (o : ByteOrder) (v : Word) :
    wordOfBytes o (byteOfWord o v 0) (byteOfWord o v 1) (byteOfWord o v 2) (byteOfWord o v 3) = v := by
  cases o <;>
  · apply BitVec.eq_of_getLsbD_eq
    intro i hi
    simp only [wordOfBytes, byteOfWord, BitVec.getLsbD_append, BitVec.getLsbD_extractLsb']
    by_cases h0 : i < 8
    · simp [h0]
    by_cases h1 : i < 16
    · have : i - 8 < 8 := by omega
      simp [h0, this, show 8 + (i - 8) = i by omega]
    by_cases h2 : i < 24
    · have e1 : ¬ i - 8 < 8 := by omega
      have e2 : i - 8 - 8 < 8 := by omega
      simp [h0, e1, e2, show 16 + (i - 8 - 8) = i by omega]
    · have e1 : ¬ i - 8 < 8 := by omega
      have e2 : ¬ i - 8 - 8 < 8 := by omega
      have e3 : i - 8 - 8 - 8 < 8 := by omega
      simp [h0, e1, e2, e3, show 24 + (i - 8 - 8 - 8) = i by omega]

/-- The byte at each offset of a word is the byte the word was assembled from. -/
theorem byteOfWord_wordOfBytes (o : ByteOrder) (b0 b1 b2 b3 : Byte) :
    byteOfWord o (wordOfBytes o b0 b1 b2 b3) 0 = b0 ∧ byteOfWord o (wordOfBytes o b0 b1 b2 b3) 1 = b1 ∧
    byteOfWord o (wordOfBytes o b0 b1 b2 b3) 2 = b2 ∧ byteOfWord o (wordOfBytes o b0 b1 b2 b3) 3 = b3 := by
  cases o <;> simp only [byteOfWord, wordOfBytes] <;> refine ⟨?_, ?_, ?_, ?_⟩ <;>
    ( apply BitVec.eq_of_getLsbD_eq
      intro i hi
      simp only [BitVec.getLsbD_extractLsb', BitVec.getLsbD_append]
      interval_cases i <;> rfl )

/-- The word view shows the bytes of the byte view (R62). -/
theorem Memory.byteOfWord_wordAt (m : Memory) (a k : Nat) (hk : k < 4) :
    byteOfWord byteOrder (m.wordAt a) k = m.read (a + k) := by
  obtain ⟨h0, h1, h2, h3⟩ := byteOfWord_wordOfBytes byteOrder (m.read a) (m.read (a + 1)) (m.read (a + 2)) (m.read (a + 3))
  unfold Memory.wordAt
  interval_cases k
  · exact h0
  · exact h1
  · exact h2
  · exact h3

/-- A word written is read back. -/
@[simp] theorem Memory.wordAt_putWord_same (m : Memory) (a : Nat) (v : Word) : (m.putWord a v).wordAt a = v := by
  unfold Memory.wordAt
  simp only [Memory.read_putWord]
  simpa using wordOfBytes_byteOfWord byteOrder v

/-- Two memories with the same four bytes hold the same word. -/
theorem Memory.wordAt_congr {m n : Memory} (h : ∀ k < 4, m.read (a + k) = n.read (a + k)) :
    m.wordAt a = n.wordAt a := by
  have h0 := h 0 (by omega)
  simp only [Nat.add_zero] at h0
  simp [Memory.wordAt, h0, h 1 (by omega), h 2 (by omega), h 3 (by omega)]

/-! ### The memory interface -/

/-- R63 read on the unsigned address, for the access widths the core has. -/
theorem inRange_iff (a : Word) (n : Nat) (hn : 0 < n) : inRange a n = true ↔ a.toNat + n ≤ memBytes := by
  have := a.isLt
  rw [inRange, decide_eq_true_iff, BitVec.toInt_eq_toNat_cond]
  simp only [memBytes]
  split <;> omega

theorem aligned_iff (a : Word) : aligned a = true ↔ a.toNat % 4 = 0 := by simp [aligned, wordBytes]

/-- Everything the byte read can do. -/
theorem readByte_cases (m : Memory) (a : Word) :
    (a.toNat < memBytes ∧ readByte m a = .ok (m.read a.toNat)) ∨
    (memBytes ≤ a.toNat ∧ readByte m a = .error (.accessOutOfRange a)) := by
  by_cases h : a.toNat < memBytes
  · exact .inl ⟨h, by simp [readByte, (inRange_iff a 1 (by omega)).mpr (by omega)]⟩
  · have : inRange a 1 = false := by
      rw [← Bool.not_eq_true, inRange_iff a 1 (by omega)]; omega
    exact .inr ⟨by omega, by simp [readByte, this]⟩

/-- Everything the byte write can do. -/
theorem writeByte_cases (m : Memory) (a : Word) (b : Byte) :
    (a.toNat < memBytes ∧ writeByte m a b = .ok (m.write a.toNat b)) ∨
    (memBytes ≤ a.toNat ∧ writeByte m a b = .error (.accessOutOfRange a)) := by
  by_cases h : a.toNat < memBytes
  · exact .inl ⟨h, by simp [writeByte, (inRange_iff a 1 (by omega)).mpr (by omega)]⟩
  · have : inRange a 1 = false := by
      rw [← Bool.not_eq_true, inRange_iff a 1 (by omega)]; omega
    exact .inr ⟨by omega, by simp [writeByte, this]⟩

theorem inRange_word (a : Word) : inRange a wordBytes = decide (a.toNat + 4 ≤ memBytes) := by
  rw [Bool.eq_iff_iff, inRange_iff a wordBytes (by decide), decide_eq_true_iff, wordBytes]

theorem aligned_eq (a : Word) : aligned a = decide (a.toNat % 4 = 0) := by
  rw [Bool.eq_iff_iff, aligned_iff, decide_eq_true_iff]

/-- Everything the word read can do. -/
theorem readWord_cases (m : Memory) (a : Word) :
    (a.toNat % 4 = 0 ∧ a.toNat + 4 ≤ memBytes ∧ readWord m a = .ok (m.wordAt a.toNat)) ∨
    (a.toNat % 4 = 0 ∧ memBytes < a.toNat + 4 ∧ readWord m a = .error (.accessOutOfRange a)) ∨
    (a.toNat % 4 ≠ 0 ∧ readWord m a = .error (.misalignedAccess a)) := by
  unfold readWord
  rw [inRange_word, aligned_eq]
  by_cases h4 : a.toNat % 4 = 0 <;> by_cases hr : a.toNat + 4 ≤ memBytes <;> simp [h4, hr]
  omega

/-- Everything the word write can do. -/
theorem writeWord_cases (m : Memory) (a v : Word) :
    (a.toNat % 4 = 0 ∧ a.toNat + 4 ≤ memBytes ∧ writeWord m a v = .ok (m.putWord a.toNat v)) ∨
    (a.toNat % 4 = 0 ∧ memBytes < a.toNat + 4 ∧ writeWord m a v = .error (.accessOutOfRange a)) ∨
    (a.toNat % 4 ≠ 0 ∧ writeWord m a v = .error (.misalignedAccess a)) := by
  unfold writeWord
  rw [inRange_word, aligned_eq]
  by_cases h4 : a.toNat % 4 = 0 <;> by_cases hr : a.toNat + 4 ≤ memBytes <;> simp [h4, hr]
  omega

/-- Everything the fetch can do. -/
theorem fetchWord_cases (m : Memory) (a : Word) :
    (a.toNat % 4 = 0 ∧ a.toNat + 4 ≤ memBytes ∧ fetchWord m a = .ok (m.wordAt a.toNat)) ∨
    (a.toNat % 4 = 0 ∧ memBytes < a.toNat + 4 ∧ fetchWord m a = .error .fetchOutOfRange) ∨
    (a.toNat % 4 ≠ 0 ∧ fetchWord m a = .error .fetchMisaligned) := by
  unfold fetchWord
  rw [inRange_word, aligned_eq]
  by_cases h4 : a.toNat % 4 = 0 <;> by_cases hr : a.toNat + 4 ≤ memBytes <;> simp [h4, hr]
  omega

end Sys2Proof.Machine
end

