-- ==== Sys2Proof/Laws/State.lean ====
section
/-!
SUPPORT. Each field of the state after each update, and reading a register after writing one.
-/

namespace Sys2Proof.Machine

variable (s : State) (r q : RegIndex) (v a hi lo : Word) (m : Memory) (b : Bool) (st : RunStatus) (e : HostEvent)

@[simp] theorem State.setReg_pc : (s.setReg r v).pc = s.pc := rfl
@[simp] theorem State.setReg_hi : (s.setReg r v).hi = s.hi := rfl
@[simp] theorem State.setReg_lo : (s.setReg r v).lo = s.lo := rfl
@[simp] theorem State.setReg_mem : (s.setReg r v).mem = s.mem := rfl
@[simp] theorem State.setReg_trace : (s.setReg r v).trace = s.trace := rfl
@[simp] theorem State.setReg_status : (s.setReg r v).status = s.status := rfl
@[simp] theorem State.setReg_blocked : (s.setReg r v).blocked = s.blocked := rfl
@[simp] theorem State.setReg_events : (s.setReg r v).events = s.events := rfl

@[simp] theorem State.setHiLo_pc : (s.setHiLo hi lo).pc = s.pc := rfl
@[simp] theorem State.setHiLo_regs : (s.setHiLo hi lo).regs = s.regs := rfl
@[simp] theorem State.setHiLo_hi : (s.setHiLo hi lo).hi = hi := rfl
@[simp] theorem State.setHiLo_lo : (s.setHiLo hi lo).lo = lo := rfl
@[simp] theorem State.setHiLo_mem : (s.setHiLo hi lo).mem = s.mem := rfl
@[simp] theorem State.setHiLo_trace : (s.setHiLo hi lo).trace = s.trace := rfl
@[simp] theorem State.setHiLo_status : (s.setHiLo hi lo).status = s.status := rfl
@[simp] theorem State.setHiLo_blocked : (s.setHiLo hi lo).blocked = s.blocked := rfl
@[simp] theorem State.setHiLo_events : (s.setHiLo hi lo).events = s.events := rfl

@[simp] theorem State.setHiLo_reg : (s.setHiLo hi lo).reg r = s.reg r := rfl

@[simp] theorem State.setMem_pc : (s.setMem m).pc = s.pc := rfl
@[simp] theorem State.setMem_regs : (s.setMem m).regs = s.regs := rfl
@[simp] theorem State.setMem_hi : (s.setMem m).hi = s.hi := rfl
@[simp] theorem State.setMem_lo : (s.setMem m).lo = s.lo := rfl
@[simp] theorem State.setMem_mem : (s.setMem m).mem = m := rfl
@[simp] theorem State.setMem_trace : (s.setMem m).trace = s.trace := rfl
@[simp] theorem State.setMem_status : (s.setMem m).status = s.status := rfl
@[simp] theorem State.setMem_blocked : (s.setMem m).blocked = s.blocked := rfl
@[simp] theorem State.setMem_events : (s.setMem m).events = s.events := rfl

@[simp] theorem State.setMem_reg : (s.setMem m).reg r = s.reg r := rfl

@[simp] theorem State.setPc_pc : (s.setPc a).pc = a := rfl
@[simp] theorem State.setPc_regs : (s.setPc a).regs = s.regs := rfl
@[simp] theorem State.setPc_hi : (s.setPc a).hi = s.hi := rfl
@[simp] theorem State.setPc_lo : (s.setPc a).lo = s.lo := rfl
@[simp] theorem State.setPc_mem : (s.setPc a).mem = s.mem := rfl
@[simp] theorem State.setPc_trace : (s.setPc a).trace = s.trace := rfl
@[simp] theorem State.setPc_status : (s.setPc a).status = s.status := rfl
@[simp] theorem State.setPc_blocked : (s.setPc a).blocked = s.blocked := rfl
@[simp] theorem State.setPc_events : (s.setPc a).events = s.events := rfl

@[simp] theorem State.setPc_reg : (s.setPc a).reg r = s.reg r := rfl

@[simp] theorem State.setTrace_pc : (s.setTrace b).pc = s.pc := rfl
@[simp] theorem State.setTrace_regs : (s.setTrace b).regs = s.regs := rfl
@[simp] theorem State.setTrace_hi : (s.setTrace b).hi = s.hi := rfl
@[simp] theorem State.setTrace_lo : (s.setTrace b).lo = s.lo := rfl
@[simp] theorem State.setTrace_mem : (s.setTrace b).mem = s.mem := rfl
@[simp] theorem State.setTrace_trace : (s.setTrace b).trace = b := rfl
@[simp] theorem State.setTrace_status : (s.setTrace b).status = s.status := rfl
@[simp] theorem State.setTrace_blocked : (s.setTrace b).blocked = s.blocked := rfl
@[simp] theorem State.setTrace_events : (s.setTrace b).events = s.events := rfl

@[simp] theorem State.setTrace_reg : (s.setTrace b).reg r = s.reg r := rfl

@[simp] theorem State.setStatus_pc : (s.setStatus st).pc = s.pc := rfl
@[simp] theorem State.setStatus_regs : (s.setStatus st).regs = s.regs := rfl
@[simp] theorem State.setStatus_hi : (s.setStatus st).hi = s.hi := rfl
@[simp] theorem State.setStatus_lo : (s.setStatus st).lo = s.lo := rfl
@[simp] theorem State.setStatus_mem : (s.setStatus st).mem = s.mem := rfl
@[simp] theorem State.setStatus_trace : (s.setStatus st).trace = s.trace := rfl
@[simp] theorem State.setStatus_status : (s.setStatus st).status = st := rfl
@[simp] theorem State.setStatus_blocked : (s.setStatus st).blocked = s.blocked := rfl
@[simp] theorem State.setStatus_events : (s.setStatus st).events = s.events := rfl

@[simp] theorem State.setStatus_reg : (s.setStatus st).reg r = s.reg r := rfl

@[simp] theorem State.setBlocked_pc : (s.setBlocked b).pc = s.pc := rfl
@[simp] theorem State.setBlocked_regs : (s.setBlocked b).regs = s.regs := rfl
@[simp] theorem State.setBlocked_hi : (s.setBlocked b).hi = s.hi := rfl
@[simp] theorem State.setBlocked_lo : (s.setBlocked b).lo = s.lo := rfl
@[simp] theorem State.setBlocked_mem : (s.setBlocked b).mem = s.mem := rfl
@[simp] theorem State.setBlocked_trace : (s.setBlocked b).trace = s.trace := rfl
@[simp] theorem State.setBlocked_status : (s.setBlocked b).status = s.status := rfl
@[simp] theorem State.setBlocked_blocked : (s.setBlocked b).blocked = b := rfl
@[simp] theorem State.setBlocked_events : (s.setBlocked b).events = s.events := rfl

@[simp] theorem State.setBlocked_reg : (s.setBlocked b).reg r = s.reg r := rfl

@[simp] theorem State.report_pc : (s.report e).pc = s.pc := rfl
@[simp] theorem State.report_regs : (s.report e).regs = s.regs := rfl
@[simp] theorem State.report_hi : (s.report e).hi = s.hi := rfl
@[simp] theorem State.report_lo : (s.report e).lo = s.lo := rfl
@[simp] theorem State.report_mem : (s.report e).mem = s.mem := rfl
@[simp] theorem State.report_trace : (s.report e).trace = s.trace := rfl
@[simp] theorem State.report_status : (s.report e).status = s.status := rfl
@[simp] theorem State.report_blocked : (s.report e).blocked = s.blocked := rfl
@[simp] theorem State.report_events : (s.report e).events = e :: s.events := rfl

@[simp] theorem State.report_reg : (s.report e).reg r = s.reg r := rfl

@[simp] theorem State.advance_pc : s.advance.pc = s.pc + 4 := rfl
@[simp] theorem State.advance_regs : s.advance.regs = s.regs := rfl
@[simp] theorem State.advance_hi : s.advance.hi = s.hi := rfl
@[simp] theorem State.advance_lo : s.advance.lo = s.lo := rfl
@[simp] theorem State.advance_mem : s.advance.mem = s.mem := rfl
@[simp] theorem State.advance_trace : s.advance.trace = s.trace := rfl
@[simp] theorem State.advance_status : s.advance.status = s.status := rfl
@[simp] theorem State.advance_blocked : s.advance.blocked = s.blocked := rfl
@[simp] theorem State.advance_events : s.advance.events = s.events := rfl

@[simp] theorem State.advance_reg : s.advance.reg r = s.reg r := rfl

@[simp] theorem State.reg_setReg_same : (s.setReg r v).reg r = v := by
  simp [State.reg, State.setReg]

theorem State.reg_setReg : (s.setReg r v).reg q = if q = r then v else s.reg q := by
  by_cases h : q = r
  · simp [h]
  · have : r.toNat ≠ q.toNat := fun e => h (BitVec.eq_of_toNat_eq e.symm)
    simp [State.reg, State.setReg, h, this]

@[simp] theorem State.reg_setReg_other (h : q ≠ r) : (s.setReg r v).reg q = s.reg q := by
  simp [State.reg_setReg, h]

/-- Writing back what a register holds changes nothing (R109). -/
theorem State.setReg_self : s.setReg r (s.reg r) = s := by
  simp [State.setReg, State.reg]

/-- Two states are equal when every register and every other field agree. -/
theorem State.ext_regs {s t : State} (hr : ∀ r, t.reg r = s.reg r) (hpc : t.pc = s.pc) (hhi : t.hi = s.hi)
    (hlo : t.lo = s.lo) (hm : t.mem = s.mem) (ht : t.trace = s.trace) (hs : t.status = s.status)
    (hb : t.blocked = s.blocked) (he : t.events = s.events) : t = s := by
  have regs : t.regs = s.regs := by
    apply Vector.ext
    intro i hi
    have := hr (BitVec.ofNat 5 i)
    have hmod : i % 32 = i := Nat.mod_eq_of_lt hi
    simpa [State.reg, hmod] using this
  cases s; cases t; simp_all

end Sys2Proof.Machine
end

