-- ==== Sys2Proof/Laws/Ops.lean ====
section
/-!
SUPPORT. What each shared operation can do: ending a run, taking a fault, committing a step, the trace event, the host
calls, and the string scan.
-/

namespace Sys2Proof.Machine

/-! ### Ending a run -/

theorem endRun_spec (st : RunStatus) (s : State) : EndedWith st s (endRun st s) where
  status := rfl
  event := rfl
  pc := rfl
  regs := fun _ => rfl
  hiLo := ⟨rfl, rfl⟩
  memory := fun _ => rfl
  trace := rfl
  blocked := rfl

theorem halt_spec (s : State) : EndedWith .halted s (halt s) := endRun_spec _ _

theorem raise_spec (c : FaultCause) (s : State) : TookFault c s (raise c s) := endRun_spec _ _

@[simp] theorem raise_status (c : FaultCause) (s : State) :
    (raise c s).status = .faulted { pc := s.pc, word := fetchedWord s, cause := c } := rfl

@[simp] theorem raise_mem (c : FaultCause) (s : State) : (raise c s).mem = s.mem := rfl
@[simp] theorem raise_blocked (c : FaultCause) (s : State) : (raise c s).blocked = s.blocked := rfl

/-! ### Committing a step -/

theorem commit_cases (s : State) (r : Except FaultCause State) :
    (∃ t, r = .ok t ∧ commit s r = t.advance) ∨ (∃ c, r = .error c ∧ commit s r = raise c s) := by
  cases r with
  | ok t => exact .inl ⟨t, rfl, rfl⟩
  | error c => exact .inr ⟨c, rfl, rfl⟩

/-- An instruction that writes one register and falls through. -/
theorem writeAndNext_spec (d : RegIndex) (v : Word) (s : State) :
    ∃ t, writeAndNext d v s = .next t ∧ WroteRegister d v s t :=
  ⟨_, rfl, {
    value := by simp
    others := fun r h => by simp [h]
    pc := rfl
    hiLo := ⟨rfl, rfl⟩
    memory := fun _ => rfl
    run := ⟨rfl, rfl, rfl, rfl⟩ }⟩

/-- An instruction that only moves the PC. -/
theorem setPc_spec (a : Word) (s : State) : MovedTo a s (s.setPc a) where
  pc := rfl
  regs := fun _ => rfl
  hiLo := ⟨rfl, rfl⟩
  memory := fun _ => rfl
  run := ⟨rfl, rfl, rfl, rfl⟩

/-- A branch goes to its target or to the next instruction, and does nothing else. -/
theorem branchIf_spec (taken : Bool) (imm : BitVec 16) (s : State) :
    ∃ t, branchIf taken imm s = .next t ∧
      MovedTo (if taken then branchTarget s.pc imm else s.pc + 4) s t := by
  cases taken
  · exact ⟨_, rfl, setPc_spec _ _⟩
  · exact ⟨_, rfl, setPc_spec _ _⟩

/-- An instruction that writes HI and LO and falls through. -/
theorem setHiLo_advance_spec (hi lo : Word) (s : State) : WroteHiLo hi lo s (s.setHiLo hi lo).advance where
  hi := rfl
  lo := rfl
  regs := fun _ => rfl
  pc := rfl
  memory := fun _ => rfl
  run := ⟨rfl, rfl, rfl, rfl⟩

/-- The three ways a divide ends (R144). -/
theorem signedDivide_cases (a b : Word) :
    (b = 0 ∧ signedDivide a b = .error .divideByZero) ∨
    (a = 0x80000000 ∧ b = 0xFFFFFFFF ∧ signedDivide a b = .error .divideOverflow) ∨
    (b ≠ 0 ∧ ¬ (a = 0x80000000 ∧ b = 0xFFFFFFFF) ∧
      signedDivide a b =
        .ok (BitVec.ofInt 32 (a.toInt.tdiv b.toInt), BitVec.ofInt 32 (a.toInt - a.toInt.tdiv b.toInt * b.toInt))) := by
  unfold signedDivide
  by_cases hb : b = 0
  · exact .inl ⟨hb, if_pos hb⟩
  · by_cases ho : a = 0x80000000 ∧ b = 0xFFFFFFFF
    · exact .inr (.inl ⟨ho.1, ho.2, by rw [if_neg hb, if_pos ho]⟩)
    · exact .inr (.inr ⟨hb, ho, by rw [if_neg hb, if_neg ho]⟩)

/-! ### The trace event -/

theorem traceStep_eq (w : Word) (s : State) :
    traceStep w s = { s with events := if s.trace then .trace (s.snapshot w) :: s.events else s.events } := by
  unfold traceStep
  rcases s with ⟨pc, regs, hi, lo, mem, trace, status, events⟩
  cases trace <;> simp [State.report, State.snapshot]

@[simp] theorem traceStep_pc (w : Word) (s : State) : (traceStep w s).pc = s.pc := by simp [traceStep_eq]
@[simp] theorem traceStep_regs (w : Word) (s : State) : (traceStep w s).regs = s.regs := by simp [traceStep_eq]
@[simp] theorem traceStep_reg (w : Word) (s : State) (r : RegIndex) : (traceStep w s).reg r = s.reg r := by
  simp [State.reg]
@[simp] theorem traceStep_hi (w : Word) (s : State) : (traceStep w s).hi = s.hi := by simp [traceStep_eq]
@[simp] theorem traceStep_lo (w : Word) (s : State) : (traceStep w s).lo = s.lo := by simp [traceStep_eq]
@[simp] theorem traceStep_mem (w : Word) (s : State) : (traceStep w s).mem = s.mem := by simp [traceStep_eq]
@[simp] theorem traceStep_trace (w : Word) (s : State) : (traceStep w s).trace = s.trace := by simp [traceStep_eq]
@[simp] theorem traceStep_status (w : Word) (s : State) : (traceStep w s).status = s.status := by
  simp [traceStep_eq]
@[simp] theorem traceStep_blocked (w : Word) (s : State) : (traceStep w s).blocked = s.blocked := by
  simp [traceStep_eq]
@[simp] theorem traceStep_fetchedWord (w : Word) (s : State) : fetchedWord (traceStep w s) = fetchedWord s := by
  simp [fetchedWord]

@[simp] theorem ioHistory_traceStep (w : Word) (s : State) :
    ioHistory (traceStep w s).events = ioHistory s.events := by
  rw [traceStep_eq]
  cases h : s.trace <;> simp [ioHistory]

theorem traceHistory_traceStep (w : Word) (s : State) :
    traceHistory (traceStep w s).events =
      if s.trace then s.snapshot w :: traceHistory s.events else traceHistory s.events := by
  rw [traceStep_eq]
  cases h : s.trace <;> simp [traceHistory]

theorem noEnd_traceStep (w : Word) (s : State) : noEnd (traceStep w s).events = noEnd s.events := by
  rw [traceStep_eq]
  cases h : s.trace <;> simp [noEnd]

/-! ### The host calls -/

/-- The result of a write: the success value, or the host's sentinel (R223). -/
theorem hostWrite_eq (s : State) (q : WriteRequest) (v : Word) :
    hostWrite s q v = (s.report (.io (.wrote q (Config.hostWrite (ioHistory s.events) q))),
      match Config.hostWrite (ioHistory s.events) q with
      | .success => v
      | .failed sentinel => sentinel) := rfl

/-- The end of an I/O service: one interaction recorded, x[2] written, the PC moved on, nothing else. -/
theorem ioResult_spec (e : IoEvent) (v : Word) (s : State) :
    DidIo e v s (ioResult (s.report (.io e), v)).advance where
  event := rfl
  value := by simp [ioResult, regV0]
  others := fun r h => State.reg_setReg_other _ _ _ _ h
  pc := rfl
  hiLo := ⟨rfl, rfl⟩
  memory := fun _ => rfl
  trace := rfl
  status := rfl
  blocked := rfl

/-! ### A blocked core -/

/-- A blocked core makes no progress (R220, I16). -/
theorem step_blocked {s : State} (hr : s.status = .running) (hb : s.blocked = true) : step s = .next s := by
  unfold step
  rw [hr]
  simp only [noStep, fetchInstr, hb, if_true]

/-- A byte zero-extended is 24 zero bits above it. -/
theorem zext8_eq (b : Byte) : zext8 b = 0#24 ++ b := by
  rw [zext8, BitVec.setWidth_eq_append (by decide)]; rfl

/-- An immediate zero-extended is 16 zero bits above it. -/
theorem zext16_eq (imm : BitVec 16) : zext16 imm = 0#16 ++ imm := by
  rw [zext16, BitVec.setWidth_eq_append (by decide)]; rfl

/-- What the end of a read does with each answer of the host, and without one. -/
theorem finishRead_spec (reply : Option ReadReply) (s : State) :
    match reply with
    | some r => DidIo (.read r) (readValue r) s (finishRead reply s)
    | none => BlockedInRead s (finishRead reply s) := by
  cases reply with
  | some r => exact ioResult_spec _ _ _
  | none => exact {
      blocked := rfl
      pc := rfl
      regs := fun _ => rfl
      hiLo := ⟨rfl, rfl⟩
      memory := fun _ => rfl
      trace := rfl
      status := rfl
      events := rfl
      stuck := fun h => step_blocked h rfl }

/-! ### The string scan (R217, R218) -/

theorem scanString_succ (n : Nat) (m : Memory) (a : Word) :
    scanString (n + 1) m a =
      match readByte m a with
      | .error c => .error c
      | .ok b =>
        if b = 0 then .ok []
        else
          match scanString n m (a + 1) with
          | .error c => .error c
          | .ok bytes => .ok (b :: bytes) := rfl

theorem toNat_succ_of_inside {a : Word} (h : a.toNat < memBytes) : (a + 1).toNat = a.toNat + 1 := by
  have : memBytes < 2 ^ 32 := by decide
  rw [BitVec.toNat_add]
  simp
  omega

/-- A string in memory is what the scan answers, given a read for each of its bytes and one for its end. -/
theorem scanString_of_stringAt (bytes : List Byte) (n : Nat) (m : Memory) (a : Word)
    (hn : bytes.length < n) (h : StringAt m a.toNat bytes) : scanString n m a = .ok bytes := by
  induction bytes generalizing n a with
  | nil =>
    obtain ⟨k, rfl⟩ : ∃ k, n = k + 1 := ⟨n - 1, by simp at hn; omega⟩
    have hin := h.inside
    have hz := h.terminator
    simp at hin hz
    rw [scanString_succ]
    rcases readByte_cases m a with ⟨_, hr⟩ | ⟨hout, _⟩
    · simp [hr, hz]
    · omega
  | cons b bs ih =>
    obtain ⟨k, rfl⟩ : ∃ k, n = k + 1 := ⟨n - 1, by omega⟩
    have hin := h.inside
    simp at hin hn
    have h0 := h.byte 0 (by simp)
    simp at h0
    have hs := toNat_succ_of_inside (a := a) (by omega)
    have tail : StringAt m (a + 1).toNat bs := by
      rw [hs]
      refine ⟨by omega, fun j hj => ?_, ?_⟩
      · have := h.byte (j + 1) (by simp; omega)
        simpa [Nat.add_assoc, Nat.add_comm 1 j] using this
      · have := h.terminator
        simpa [Nat.add_assoc, Nat.add_comm 1 bs.length] using this
    rw [scanString_succ, ih k (a + 1) (by omega) tail]
    rcases readByte_cases m a with ⟨_, hr⟩ | ⟨hout, _⟩
    · simp [hr, h0]
    · omega

/-- With no 0 byte from a to the end of memory, the scan stops at the first address outside. -/
theorem scanString_runs_off (n : Nat) (m : Memory) (a : Word) (hn : memBytes < n + a.toNat)
    (ha : a.toNat ≤ memBytes) (h : ∀ c, a.toNat ≤ c → c < memBytes → m.read c ≠ 0) :
    scanString n m a = .error (.accessOutOfRange (BitVec.ofNat 32 memBytes)) := by
  induction n generalizing a with
  | zero => omega
  | succ n ih =>
    rw [scanString_succ]
    rcases readByte_cases m a with ⟨hin, hr⟩ | ⟨hout, hr⟩
    · have hs := toNat_succ_of_inside hin
      have hnz := h a.toNat (Nat.le_refl _) hin
      rw [hr, ih (a + 1) (by omega) (by omega) fun c h1 h2 => h c (by omega) h2]
      simp only [if_neg hnz]
    · rw [hr]
      have : a = BitVec.ofNat 32 memBytes := by
        apply BitVec.eq_of_toNat_eq
        have : memBytes < 2 ^ 32 := by decide
        simp
        omega
      simp [this]

theorem scanString_outside (n : Nat) (m : Memory) (a : Word) (ha : memBytes ≤ a.toNat) :
    scanString n m a = .error (.accessOutOfRange a) := by
  cases n with
  | zero => rfl
  | succ n =>
    rw [scanString_succ]
    rcases readByte_cases m a with ⟨hin, _⟩ | ⟨_, hr⟩
    · omega
    · rw [hr]

end Sys2Proof.Machine
end

