-- ==== Sys2Proof/Laws/Exec.lean ====
section
/-!
SUPPORT. What an instruction can do, said once: `exec_cases`. Claims about all instructions are derived from it.
-/

namespace Sys2Proof.Machine

/-- The ways an instruction i ends from a state s, each with the instructions it belongs to. -/
inductive ExecCase (i : Instr) (s : State) : State → Prop where
  /-- It wrote one register and fell through. -/
  | wrote (d : RegIndex) (v : Word) (hw : writtenReg i = some d) (ht : transferTarget i s = none)
      (hio : i ≠ .pstr ∧ i ≠ .pch ∧ i ≠ .rch) : ExecCase i s (s.setReg d v).advance
  /-- It wrote HI and LO and fell through: mul, or div without a fault. -/
  | wroteHiLo (hi lo : Word) (hi' : ∃ rs rt, i = .mul rs rt ∨ i = .div rs rt) :
      ExecCase i s (s.setHiLo hi lo).advance
  /-- A transfer without a link: jr, a taken branch, jmp. -/
  | moved (a : Word) (ht : transferTarget i s = some a) (hw : writtenReg i = none) : ExecCase i s (s.setPc a)
  /-- jal. -/
  | linked (target : BitVec 26) (hi' : i = .jal target) :
      ExecCase i s ((s.setReg 31 (s.pc + 4)).setPc (jumpTarget s.pc target))
  /-- A branch that was not taken. -/
  | notTaken (ht : transferTarget i s = none) (hw : writtenReg i = none) (hp : i ≠ .pstr) (hx : i ≠ .exit) :
      ExecCase i s s.advance
  /-- A store without a fault; the memory written keeps its canonical form. -/
  | stored (m : Memory) (hi' : ∃ rt rs imm, i = .sb rt rs imm ∨ i = .sw rt rs imm) (hm : s.mem.wf → m.wf) :
      ExecCase i s (s.setMem m).advance
  /-- A syscall of the host that completed. -/
  | didIo (e : IoEvent) (v : Word) (hi' : i = .pstr ∨ i = .pch ∨ i = .rch) :
      ExecCase i s ((s.report (.io e)).setReg 2 v).advance
  /-- A rch the host never answers. -/
  | blocked (hi' : i = .rch) (hn : hostRead s = none) : ExecCase i s (s.setBlocked true)
  /-- stra or notr. -/
  | switched (b : Bool) (hi' : i = .stra ∨ i = .notr) : ExecCase i s (s.setTrace b).advance
  /-- exit. -/
  | halted (hi' : i = .exit) : ExecCase i s (halt s)
  /-- A fault of the instruction's own. -/
  | faulted (c : FaultCause)
      (hi' : (∃ rs rt, i = .div rs rt) ∨ i = .pstr ∨
        ∃ rt rs imm, i = .lbu rt rs imm ∨ i = .lw rt rs imm ∨ i = .sb rt rs imm ∨ i = .sw rt rs imm) :
      ExecCase i s (raise c s)

theorem loadResult_cases (i : Instr) (rt : RegIndex) (r : Except FaultCause Word) (s : State)
    (hw : writtenReg i = some rt) (ht : transferTarget i s = none) (hio : i ≠ .pstr ∧ i ≠ .pch ∧ i ≠ .rch)
    (hf : ∃ rt rs imm, i = .lbu rt rs imm ∨ i = .lw rt rs imm ∨ i = .sb rt rs imm ∨ i = .sw rt rs imm) :
    ∃ t, loadResult rt r s = .next t ∧ ExecCase i s t := by
  cases r with
  | ok v => exact ⟨_, rfl, .wrote rt v hw ht hio⟩
  | error c => exact ⟨_, rfl, .faulted c (.inr (.inr hf))⟩

theorem branchIf_cases (i : Instr) (taken : Bool) (imm : BitVec 16) (s : State)
    (ht : transferTarget i s = if taken then some (branchTarget s.pc imm) else none)
    (hw : writtenReg i = none) (hp : i ≠ .pstr) (hx : i ≠ .exit) :
    ∃ t, branchIf taken imm s = .next t ∧ ExecCase i s t := by
  cases taken
  · exact ⟨_, rfl, .notTaken (by simpa using ht) hw hp hx⟩
  · exact ⟨_, rfl, .moved _ (by simpa using ht) hw⟩

theorem storeResult_cases (i : Instr) (r : Except FaultCause Memory) (s : State)
    (hi : ∃ rt rs imm, i = .sb rt rs imm ∨ i = .sw rt rs imm) (hm : ∀ m, r = .ok m → s.mem.wf → m.wf) :
    ∃ t, storeResult r s = .next t ∧ ExecCase i s t := by
  cases r with
  | ok m => exact ⟨_, rfl, .stored m hi (hm m rfl)⟩
  | error c =>
    obtain ⟨rt, rs, imm, h⟩ := hi
    exact ⟨_, rfl, .faulted c (.inr (.inr ⟨rt, rs, imm, by tauto⟩))⟩

theorem wf_of_writeByte {m m' : Memory} {a : Word} {b : Byte} (h : writeByte m a b = .ok m') (hm : m.wf) : m'.wf := by
  rcases writeByte_cases m a b with ⟨hin, e⟩ | ⟨_, e⟩ <;> rw [e] at h <;> cases h
  exact Memory.wf_write hm hin

theorem wf_of_writeWord {m m' : Memory} {a v : Word} (h : writeWord m a v = .ok m') (hm : m.wf) : m'.wf := by
  rcases writeWord_cases m a v with ⟨_, hin, e⟩ | ⟨_, _, e⟩ | ⟨_, e⟩ <;> rw [e] at h <;> cases h
  exact Memory.wf_putWord v hm hin

/-- Placing a word at the PC keeps the canonical form. -/
theorem wf_placeWord (s : State) (v : Word) (hm : s.mem.wf) : (placeWord s v).mem.wf := by
  unfold placeWord
  cases h : writeWord s.mem s.pc v with
  | ok m => exact wf_of_writeWord h hm
  | error c => exact hm

/-- Every instruction has a next state, and it is one of these. -/
theorem exec_cases (i : Instr) (s : State) : ∃ t, exec i s = .next t ∧ ExecCase i s t := by
  cases i with
  | sll rd rt sh => exact ⟨_, rfl, .wrote rd _ rfl rfl (by simp)⟩
  | srl rd rt sh => exact ⟨_, rfl, .wrote rd _ rfl rfl (by simp)⟩
  | jr rs => exact ⟨_, rfl, .moved _ rfl rfl⟩
  | mfhi rd => exact ⟨_, rfl, .wrote rd _ rfl rfl (by simp)⟩
  | mflo rd => exact ⟨_, rfl, .wrote rd _ rfl rfl (by simp)⟩
  | mul rs rt => exact ⟨_, rfl, .wroteHiLo _ _ ⟨rs, rt, .inl rfl⟩⟩
  | div rs rt =>
    show ∃ t, execDiv rs rt s = .next t ∧ _
    unfold execDiv
    cases signedDivide (s.reg rs) (s.reg rt) with
    | ok qr => exact ⟨_, rfl, .wroteHiLo _ _ ⟨rs, rt, .inr rfl⟩⟩
    | error c => exact ⟨_, rfl, .faulted c (.inl ⟨rs, rt, rfl⟩)⟩
  | add rd rs rt => exact ⟨_, rfl, .wrote rd _ rfl rfl (by simp)⟩
  | sub rd rs rt => exact ⟨_, rfl, .wrote rd _ rfl rfl (by simp)⟩
  | and rd rs rt => exact ⟨_, rfl, .wrote rd _ rfl rfl (by simp)⟩
  | or rd rs rt => exact ⟨_, rfl, .wrote rd _ rfl rfl (by simp)⟩
  | xor rd rs rt => exact ⟨_, rfl, .wrote rd _ rfl rfl (by simp)⟩
  | nor rd rs rt => exact ⟨_, rfl, .wrote rd _ rfl rfl (by simp)⟩
  | addi rt rs imm => exact ⟨_, rfl, .wrote rt _ rfl rfl (by simp)⟩
  | andi rt rs imm => exact ⟨_, rfl, .wrote rt _ rfl rfl (by simp)⟩
  | ori rt rs imm => exact ⟨_, rfl, .wrote rt _ rfl rfl (by simp)⟩
  | xori rt rs imm => exact ⟨_, rfl, .wrote rt _ rfl rfl (by simp)⟩
  | beq rs rt imm => exact branchIf_cases _ _ _ _ (by simp [transferTarget, condEq]) rfl (by simp) (by simp)
  | bne rs rt imm => exact branchIf_cases _ _ _ _ (by simp [transferTarget, condEq]) rfl (by simp) (by simp)
  | blez rs imm => exact branchIf_cases _ _ _ _ (by simp [transferTarget, condLez]) rfl (by simp) (by simp)
  | bgtz rs imm => exact branchIf_cases _ _ _ _ (by simp [transferTarget, condGtz]) rfl (by simp) (by simp)
  | bltz rs imm => exact branchIf_cases _ _ _ _ (by simp [transferTarget, condLtz]) rfl (by simp) (by simp)
  | bgez rs imm => exact branchIf_cases _ _ _ _ (by simp [transferTarget, condGez]) rfl (by simp) (by simp)
  | lw rt rs imm => exact loadResult_cases _ _ _ _ rfl rfl (by simp) ⟨rt, rs, imm, by simp⟩
  | lbu rt rs imm => exact loadResult_cases _ _ _ _ rfl rfl (by simp) ⟨rt, rs, imm, by simp⟩
  | sb rt rs imm => exact storeResult_cases _ _ _ ⟨rt, rs, imm, by simp⟩ fun _ h => wf_of_writeByte h
  | sw rt rs imm => exact storeResult_cases _ _ _ ⟨rt, rs, imm, by simp⟩ fun _ h => wf_of_writeWord h
  | jmp target => exact ⟨_, rfl, .moved _ rfl rfl⟩
  | jal target => exact ⟨_, rfl, .linked target rfl⟩
  | pstr =>
    show ∃ t, execPstr s = .next t ∧ _
    unfold execPstr
    cases scanString stringFuel s.mem (s.reg regA0) with
    | ok bytes => exact ⟨_, rfl, .didIo _ _ (by simp)⟩
    | error c => exact ⟨_, rfl, .faulted c (by simp)⟩
  | exit => exact ⟨_, rfl, .halted rfl⟩
  | pch => exact ⟨_, rfl, .didIo _ _ (by simp)⟩
  | rch =>
    show ∃ t, execRch s = .next t ∧ _
    unfold execRch
    cases h : hostRead s with
    | some r => exact ⟨_, rfl, .didIo _ _ (by simp)⟩
    | none => exact ⟨_, rfl, .blocked rfl h⟩
  | stra => exact ⟨_, rfl, .switched _ (by simp)⟩
  | notr => exact ⟨_, rfl, .switched _ (by simp)⟩

/-- The same from an answer. -/
theorem execCase_of_next {i : Instr} {s t : State} (h : exec i s = .next t) : ExecCase i s t := by
  obtain ⟨t', h', hc⟩ := exec_cases i s
  rw [h] at h'
  cases h'
  exact hc

/-- The ways a step can end (R120 to R126): the core was blocked, or it was not and one of three. -/
theorem step_cases {s t : State} (h : step s = .next t) :
    s.status = .running ∧
    ((s.blocked = true ∧ t = s) ∨
     s.blocked = false ∧
      ((∃ c, fetchWord s.mem s.pc = .error c ∧ t = raise c s) ∨
       (∃ w k, fetchWord s.mem s.pc = .ok w ∧ decode w = .error k ∧ t = raise (illegalCause k) (traceStep w s)) ∨
       (∃ w i, fetchWord s.mem s.pc = .ok w ∧ decode w = .ok i ∧ exec i (traceStep w s) = .next t))) := by
  unfold step at h
  split at h
  · cases h
  · rename_i hn
    refine ⟨by cases hs : s.status <;> simp_all [noStep], ?_⟩
    unfold fetchInstr at h
    cases hb : s.blocked with
    | true => simp only [hb, if_true] at h; cases h; exact .inl ⟨rfl, rfl⟩
    | false =>
      refine .inr ⟨rfl, ?_⟩
      simp only [hb, Bool.false_eq_true, if_false] at h
      cases hf : fetchWord s.mem s.pc with
      | error c => simp only [hf] at h; cases h; exact .inl ⟨c, rfl, rfl⟩
      | ok w =>
        simp only [hf] at h
        cases hd : decode w with
        | error k => simp only [hd] at h; cases h; exact .inr (.inl ⟨w, k, rfl, hd, rfl⟩)
        | ok i => simp only [hd] at h; exact .inr (.inr ⟨w, i, rfl, hd, h⟩)

/-- The step of a running machine that is not blocked, by what the fetch and the decoder answer. -/
theorem step_running {s : State} (h : s.status = .running) (hb : s.blocked = false) :
    step s =
      match fetchWord s.mem s.pc with
      | .error c => .next (raise c s)
      | .ok w =>
        match decode w with
        | .error k => .next (raise (illegalCause k) (traceStep w s))
        | .ok i => exec i (traceStep w s) := by
  unfold step
  rw [h]
  simp only [noStep, fetchInstr, hb, Bool.false_eq_true, if_false]
  cases fetchWord s.mem s.pc with
  | error c => rfl
  | ok w =>
    dsimp only
    cases decode w <;> rfl

end Sys2Proof.Machine
end

