-- ==== Sys2Proof/Laws/PerInstr.lean ====
section
/-!
SUPPORT. Statements made per instruction. `RowMatch`: the word of an instruction is of the row of
spec/opcode_table.json that bears the instruction's mnemonic.
-/

namespace Sys2Proof.Laws.RowMatch

/-- Some row of the opcode table with the instruction's mnemonic matches its word. -/
def Statement (i : Instr) : Prop :=
  ∃ row ∈ opcodeTable, row.mnemonic = i.mnemonic ∧ row.matchesWord (encode i) = true

/-- Opcode and function code are what the mask of an R-format row keeps (R92). -/
theorem maskR (op f : BitVec 6) (rs rt rd sh : BitVec 5) :
    (op ++ rs ++ rt ++ rd ++ sh ++ f : Word) &&& 0xFC00003F = op ++ 0#20 ++ f := by
  apply BitVec.eq_of_getLsbD_eq
  intro i hi
  simp only [BitVec.getLsbD_and, BitVec.getLsbD_append]
  interval_cases i <;> simp

/-- The opcode is what the mask of an I-format row keeps (R93). -/
theorem maskI (op : BitVec 6) (rs rt : BitVec 5) (imm : BitVec 16) :
    (op ++ rs ++ rt ++ imm : Word) &&& 0xFC000000 = op ++ 0#26 := by
  apply BitVec.eq_of_getLsbD_eq
  intro i hi
  simp only [BitVec.getLsbD_and, BitVec.getLsbD_append]
  interval_cases i <;> simp

/-- Opcode and sub-code are what the mask of an opcode-1 row keeps (R105). -/
theorem maskRegimm (op : BitVec 6) (rs rt : BitVec 5) (imm : BitVec 16) :
    (op ++ rs ++ rt ++ imm : Word) &&& 0xFC1F0000 = op ++ 0#5 ++ rt ++ 0#16 := by
  apply BitVec.eq_of_getLsbD_eq
  intro i hi
  simp only [BitVec.getLsbD_and, BitVec.getLsbD_append]
  interval_cases i <;> simp

/-- The opcode is what the mask of a J-format row keeps (R94). -/
theorem maskJ (op : BitVec 6) (target : BitVec 26) : (op ++ target : Word) &&& 0xFC000000 = op ++ 0#26 := by
  apply BitVec.eq_of_getLsbD_eq
  intro i hi
  simp only [BitVec.getLsbD_and, BitVec.getLsbD_append]
  interval_cases i <;> simp

/-- A row of the table, its mnemonic, and its mask applied to the word. -/
theorem of_mask {i : Instr} (row : TableRow) (hrow : row ∈ opcodeTable) (hname : row.mnemonic = i.mnemonic)
    (h : encode i &&& row.mask = row.pattern) : Statement i :=
  ⟨row, hrow, hname, by rw [TableRow.matchesWord, h]; exact beq_self_eq_true _⟩

theorem sll (rd rt : RegIndex) (shamt : Nat) : Statement (.sll rd rt shamt) :=
  of_mask ⟨"sll", 0xFC00003F, 0x00000000⟩ (by decide) rfl ((maskR _ _ _ _ _ _).trans (by decide))

theorem srl (rd rt : RegIndex) (shamt : Nat) : Statement (.srl rd rt shamt) :=
  of_mask ⟨"srl", 0xFC00003F, 0x00000002⟩ (by decide) rfl ((maskR _ _ _ _ _ _).trans (by decide))

theorem jr (rs : RegIndex) : Statement (.jr rs) :=
  of_mask ⟨"jr", 0xFC00003F, 0x00000008⟩ (by decide) rfl ((maskR _ _ _ _ _ _).trans (by decide))

theorem mfhi (rd : RegIndex) : Statement (.mfhi rd) :=
  of_mask ⟨"mfhi", 0xFC00003F, 0x00000010⟩ (by decide) rfl ((maskR _ _ _ _ _ _).trans (by decide))

theorem mflo (rd : RegIndex) : Statement (.mflo rd) :=
  of_mask ⟨"mflo", 0xFC00003F, 0x00000012⟩ (by decide) rfl ((maskR _ _ _ _ _ _).trans (by decide))

theorem mul (rs rt : RegIndex) : Statement (.mul rs rt) :=
  of_mask ⟨"mul", 0xFC00003F, 0x00000018⟩ (by decide) rfl ((maskR _ _ _ _ _ _).trans (by decide))

theorem div (rs rt : RegIndex) : Statement (.div rs rt) :=
  of_mask ⟨"div", 0xFC00003F, 0x0000001A⟩ (by decide) rfl ((maskR _ _ _ _ _ _).trans (by decide))

theorem add (rd rs rt : RegIndex) : Statement (.add rd rs rt) :=
  of_mask ⟨"add", 0xFC00003F, 0x00000021⟩ (by decide) rfl ((maskR _ _ _ _ _ _).trans (by decide))

theorem sub (rd rs rt : RegIndex) : Statement (.sub rd rs rt) :=
  of_mask ⟨"sub", 0xFC00003F, 0x00000023⟩ (by decide) rfl ((maskR _ _ _ _ _ _).trans (by decide))

theorem and (rd rs rt : RegIndex) : Statement (.and rd rs rt) :=
  of_mask ⟨"and", 0xFC00003F, 0x00000024⟩ (by decide) rfl ((maskR _ _ _ _ _ _).trans (by decide))

theorem or (rd rs rt : RegIndex) : Statement (.or rd rs rt) :=
  of_mask ⟨"or", 0xFC00003F, 0x00000025⟩ (by decide) rfl ((maskR _ _ _ _ _ _).trans (by decide))

theorem xor (rd rs rt : RegIndex) : Statement (.xor rd rs rt) :=
  of_mask ⟨"xor", 0xFC00003F, 0x00000026⟩ (by decide) rfl ((maskR _ _ _ _ _ _).trans (by decide))

theorem nor (rd rs rt : RegIndex) : Statement (.nor rd rs rt) :=
  of_mask ⟨"nor", 0xFC00003F, 0x00000027⟩ (by decide) rfl ((maskR _ _ _ _ _ _).trans (by decide))

theorem addi (rt rs : RegIndex) (imm : BitVec 16) : Statement (.addi rt rs imm) :=
  of_mask ⟨"addi", 0xFC000000, 0x24000000⟩ (by decide) rfl ((maskI _ _ _ _).trans (by decide))

theorem andi (rt rs : RegIndex) (imm : BitVec 16) : Statement (.andi rt rs imm) :=
  of_mask ⟨"andi", 0xFC000000, 0x30000000⟩ (by decide) rfl ((maskI _ _ _ _).trans (by decide))

theorem ori (rt rs : RegIndex) (imm : BitVec 16) : Statement (.ori rt rs imm) :=
  of_mask ⟨"ori", 0xFC000000, 0x34000000⟩ (by decide) rfl ((maskI _ _ _ _).trans (by decide))

theorem xori (rt rs : RegIndex) (imm : BitVec 16) : Statement (.xori rt rs imm) :=
  of_mask ⟨"xori", 0xFC000000, 0x38000000⟩ (by decide) rfl ((maskI _ _ _ _).trans (by decide))

theorem beq (rs rt : RegIndex) (imm : BitVec 16) : Statement (.beq rs rt imm) :=
  of_mask ⟨"beq", 0xFC000000, 0x10000000⟩ (by decide) rfl ((maskI _ _ _ _).trans (by decide))

theorem bne (rs rt : RegIndex) (imm : BitVec 16) : Statement (.bne rs rt imm) :=
  of_mask ⟨"bne", 0xFC000000, 0x14000000⟩ (by decide) rfl ((maskI _ _ _ _).trans (by decide))

theorem blez (rs : RegIndex) (imm : BitVec 16) : Statement (.blez rs imm) :=
  of_mask ⟨"blez", 0xFC000000, 0x18000000⟩ (by decide) rfl ((maskI _ _ _ _).trans (by decide))

theorem bgtz (rs : RegIndex) (imm : BitVec 16) : Statement (.bgtz rs imm) :=
  of_mask ⟨"bgtz", 0xFC000000, 0x1C000000⟩ (by decide) rfl ((maskI _ _ _ _).trans (by decide))

theorem bltz (rs : RegIndex) (imm : BitVec 16) : Statement (.bltz rs imm) :=
  of_mask ⟨"bltz", 0xFC1F0000, 0x04000000⟩ (by decide) rfl ((maskRegimm _ _ _ _).trans (by decide))

theorem bgez (rs : RegIndex) (imm : BitVec 16) : Statement (.bgez rs imm) :=
  of_mask ⟨"bgez", 0xFC1F0000, 0x04010000⟩ (by decide) rfl ((maskRegimm _ _ _ _).trans (by decide))

theorem lw (rt rs : RegIndex) (imm : BitVec 16) : Statement (.lw rt rs imm) :=
  of_mask ⟨"lw", 0xFC000000, 0x8C000000⟩ (by decide) rfl ((maskI _ _ _ _).trans (by decide))

theorem lbu (rt rs : RegIndex) (imm : BitVec 16) : Statement (.lbu rt rs imm) :=
  of_mask ⟨"lbu", 0xFC000000, 0x90000000⟩ (by decide) rfl ((maskI _ _ _ _).trans (by decide))

theorem sb (rt rs : RegIndex) (imm : BitVec 16) : Statement (.sb rt rs imm) :=
  of_mask ⟨"sb", 0xFC000000, 0xA0000000⟩ (by decide) rfl ((maskI _ _ _ _).trans (by decide))

theorem sw (rt rs : RegIndex) (imm : BitVec 16) : Statement (.sw rt rs imm) :=
  of_mask ⟨"sw", 0xFC000000, 0xAC000000⟩ (by decide) rfl ((maskI _ _ _ _).trans (by decide))

theorem jmp (target : BitVec 26) : Statement (.jmp target) :=
  of_mask ⟨"jmp", 0xFC000000, 0x08000000⟩ (by decide) rfl ((maskJ _ _).trans (by decide))

theorem jal (target : BitVec 26) : Statement (.jal target) :=
  of_mask ⟨"jal", 0xFC000000, 0x0C000000⟩ (by decide) rfl ((maskJ _ _).trans (by decide))

theorem pstr : Statement .pstr :=
  of_mask ⟨"pstr", 0xFFFFFFFF, 0x0000010C⟩ (by decide) rfl (by decide)

theorem exit : Statement .exit :=
  of_mask ⟨"exit", 0xFFFFFFFF, 0x0000028C⟩ (by decide) rfl (by decide)

theorem pch : Statement .pch :=
  of_mask ⟨"pch", 0xFFFFFFFF, 0x000002CC⟩ (by decide) rfl (by decide)

theorem rch : Statement .rch :=
  of_mask ⟨"rch", 0xFFFFFFFF, 0x0000030C⟩ (by decide) rfl (by decide)

theorem stra : Statement .stra :=
  of_mask ⟨"stra", 0xFFFFFFFF, 0x0001FF8C⟩ (by decide) rfl (by decide)

theorem notr : Statement .notr :=
  of_mask ⟨"notr", 0xFFFFFFFF, 0x0001FFCC⟩ (by decide) rfl (by decide)

end Sys2Proof.Laws.RowMatch
end

