-- ==== Sys2Proof/Laws/Reset.lean ====
section
/-!
SUPPORT. The loading of words into memory and the checks of the reset procedure, each operation's lemma said once.
-/

namespace Sys2Proof.Machine

/-- Storing words leaves every byte outside them as it was. -/
theorem read_storeWords_outside (vs : List Word) (m : Memory) (a c : Nat) (h : c < a ∨ a + 4 * vs.length ≤ c) :
    (storeWords m a vs).read c = m.read c := by
  induction vs generalizing m a with
  | nil => rfl
  | cons v vs ih =>
    rw [List.length_cons] at h
    rw [storeWords, ih _ _ (by rw [wordBytes]; omega), Memory.read_putWord, if_neg (by omega)]

/-- Each word stored is read back where it was put. -/
theorem wordAt_storeWords (vs : List Word) (m : Memory) (a i : Nat) (h : i < vs.length) :
    (storeWords m a vs).wordAt (a + 4 * i) = vs[i] := by
  induction vs generalizing m a i with
  | nil => simp at h
  | cons v vs ih =>
    rw [storeWords]
    cases i with
    | zero =>
      rw [Memory.wordAt_congr (n := m.putWord a v)]
      · exact Memory.wordAt_putWord_same m a v
      · intro k hk
        rw [read_storeWords_outside]
        rw [wordBytes]
        omega
    | succ i =>
      have := ih (m.putWord a v) (a + wordBytes) i (by simpa using h)
      rwa [show a + 4 * (i + 1) = a + wordBytes + 4 * i by rw [wordBytes]; omega]

/-- Storing words inside memory keeps the canonical form. -/
theorem wf_storeWords (vs : List Word) (m : Memory) (a : Nat) (hm : m.wf) (ha : a + 4 * vs.length ≤ memBytes) :
    (storeWords m a vs).wf := by
  induction vs generalizing m a with
  | nil => exact hm
  | cons v vs ih =>
    rw [List.length_cons] at ha
    exact ih _ _ (Memory.wf_putWord v hm (by omega)) (by rw [wordBytes]; omega)

/-- The closed form of L7 read on the unsigned start address. -/
theorem segmentFits_iff (start : Word) (n : Nat) :
    segmentFits start n = true ↔ n = 0 ∨ start.toNat + 4 * n ≤ memBytes := by
  have := start.isLt
  simp only [segmentFits, Bool.or_eq_true, Bool.and_eq_true, decide_eq_true_iff, wordBytes, beq_iff_eq, memBytes]
  rw [BitVec.toInt_eq_toNat_cond]
  split
  · constructor
    · rintro (h | ⟨_, h⟩)
      · exact .inl h
      · exact .inr (of_decide_eq_true h)
    · rintro (h | h)
      · exact .inl h
      · exact .inr ⟨by omega, decide_eq_true h⟩
  · omega

/-- A header that passes has both segments inside memory. -/
theorem segments_fit {h : Header} (hv : validate h = none) :
    segmentFits h.textStart (wordCount h.textLen) = true ∧ segmentFits h.dataStart (wordCount h.dataLen) = true := by
  unfold validate at hv
  repeat' split at hv
  all_goals first | contradiction | skip
  rename_i h7
  simpa using h7

/-- The two ways the reset procedure ends. -/
theorem boot_cases (im : Image) :
    (∃ e, validate im.header = some e ∧ boot im = endRun (.loadFailed e) (seedRegisters im.header powerOn)) ∨
    (validate im.header = none ∧
      boot im =
        (((seedRegisters im.header powerOn).setMem (initialMemory im)).setTrace false).setStatus .running) := by
  cases h : validate im.header with
  | some e => exact .inl ⟨e, rfl, by simp only [boot, finishReset, h]⟩
  | none => exact .inr ⟨rfl, by simp only [boot, finishReset, h]⟩

end Sys2Proof.Machine
end

