-- ==== Sys2Proof/Tests/Slice0.lean ====
section
/-!
SUPPORT. The model's own tests. Every expected value is the spec's: an encoding example of R116, a corner case of the
instruction's rule, or a row of 95_test_vectors.md. The theorems `test_meets_…` show, for each statement of
Certificates/Slice0/Obligations.lean that has hypotheses, a state and operands that meet them.
-/

namespace Sys2Proof.Tests

open Sys2Proof Sys2Proof.Machine

/-! ### Helpers -/

/-- One value of the next state; none where there is no next state. -/
def peek {α : Type} (o : Answer) (f : State → α) : Option α :=
  match o with
  | .next t => some (f t)
  | .fault _ => none
  | .refused _ => none

/-- The fault record the next state holds, if it holds one. -/
def recordOf (o : Answer) : Option FaultRecord :=
  match o with
  | .next t =>
    match t.status with
    | .faulted record => some record
    | _ => none
  | .fault _ => none
  | .refused _ => none

/-- The state after reset with the PC at a. -/
def pcAt (a : Word) : State := State.reset.setPc a

/-- The state after reset with x[8] and x[9] given. -/
def withT (a b : Word) : State := (State.reset.setReg 8 a).setReg 9 b

/-- The state after reset with the word w at address 0, where the PC is. -/
def holding (w : Word) : State := State.reset.setMem (Memory.putWord [] 0 w)

/-- The state after reset with the word 0x12345678 at 0x400 and x[8] = a (95_test_vectors.md 2.4). -/
def withData (a : Word) : State := (State.reset.setMem (Memory.putWord [] 0x400 0x12345678)).setReg 8 a

/-- The decoder reads the word as the instruction, and the encoder writes it back. -/
def agree (w : Word) (i : Instr) : Bool := decide (decode w = .ok i ∧ encode i = w)

/-! ### Well-formedness: a term out of range is refused -/

/-- R102: a shift by 32 cannot be encoded. -/
theorem test_illformed_sll : Instr.wellFormed (.sll 8 9 32) = false := by decide

theorem test_illformed_srl : Instr.wellFormed (.srl 8 9 32) = false := by decide

theorem test_wellformed_shift_31 : Instr.wellFormed (.sll 8 9 31) = true ∧ Instr.wellFormed (.srl 8 9 0) = true := by
  decide

/-! ### Decoding: every word of R116, field by field -/

/-- R116: `addi $v0, $zero, 5` is 0x24020005. -/
theorem test_decode_addi : agree 0b001001_00000_00010_0000000000000101 (.addi 2 0 5) = true := by decide

/-- R116: `add $t1, $t1, $t0` is 0x01284821. -/
theorem test_decode_add : agree 0b000000_01001_01000_01001_00000_100001 (.add 9 9 8) = true := by decide

/-- R116: `sub $v0, $a0, $a1` is 0x00851023. -/
theorem test_decode_sub : agree 0b000000_00100_00101_00010_00000_100011 (.sub 2 4 5) = true := by decide

/-- R116: `mul $a0, $a1` is 0x00850018. -/
theorem test_decode_mul : agree 0b000000_00100_00101_00000_00000_011000 (.mul 4 5) = true := by decide

/-- R116: `div $a0, $a1` is 0x0085001A. -/
theorem test_decode_div : agree 0b000000_00100_00101_00000_00000_011010 (.div 4 5) = true := by decide

/-- R116: `mfhi $s1` is 0x00008810. -/
theorem test_decode_mfhi : agree 0b000000_00000_00000_10001_00000_010000 (.mfhi 17) = true := by decide

/-- R116: `mflo $v0` is 0x00001012. -/
theorem test_decode_mflo : agree 0b000000_00000_00000_00010_00000_010010 (.mflo 2) = true := by decide

/-- R116: `and $t2, $t0, $t1` is 0x01095024. -/
theorem test_decode_and : agree 0b000000_01000_01001_01010_00000_100100 (.and 10 8 9) = true := by decide

/-- R116: `or $t2, $t0, $t1` is 0x01095025. -/
theorem test_decode_or : agree 0b000000_01000_01001_01010_00000_100101 (.or 10 8 9) = true := by decide

/-- R116: `xor $t2, $t0, $t1` is 0x01095026. -/
theorem test_decode_xor : agree 0b000000_01000_01001_01010_00000_100110 (.xor 10 8 9) = true := by decide

/-- R116: `nor $t2, $t0, $t1` is 0x01095027. -/
theorem test_decode_nor : agree 0b000000_01000_01001_01010_00000_100111 (.nor 10 8 9) = true := by decide

/-- R116: `sll $t0, $t0, 16` is 0x00084400. -/
theorem test_decode_sll : agree 0b000000_00000_01000_01000_10000_000000 (.sll 8 8 16) = true := by decide

/-- R116: `srl $t0, $t1, 1` is 0x00094042. -/
theorem test_decode_srl : agree 0b000000_00000_01001_01000_00001_000010 (.srl 8 9 1) = true := by decide

/-- R116: `jr $ra` is 0x03E00008. -/
theorem test_decode_jr : agree 0b000000_11111_00000_00000_00000_001000 (.jr 31) = true := by decide

/-- R116: `andi $t0, $t1, 0xffff` is 0x3128FFFF. -/
theorem test_decode_andi : agree 0b001100_01001_01000_1111111111111111 (.andi 8 9 0xFFFF) = true := by decide

/-- R116: `ori $t0, $t0, 0x5678` is 0x35085678. -/
theorem test_decode_ori : agree 0b001101_01000_01000_0101011001111000 (.ori 8 8 0x5678) = true := by decide

/-- R116: `xori $t0, $t1, 1` is 0x39280001. -/
theorem test_decode_xori : agree 0b001110_01001_01000_0000000000000001 (.xori 8 9 1) = true := by decide

/-- R116: `beq $t0, $t1, 3` is 0x11090003. -/
theorem test_decode_beq : agree 0b000100_01000_01001_0000000000000011 (.beq 8 9 3) = true := by decide

/-- R116: `bne $t0, $zero, -1` is 0x1500FFFF. -/
theorem test_decode_bne : agree 0b000101_01000_00000_1111111111111111 (.bne 8 0 0xFFFF) = true := by decide

/-- R116: `blez $t0, 2` is 0x19000002. -/
theorem test_decode_blez : agree 0b000110_01000_00000_0000000000000010 (.blez 8 2) = true := by decide

/-- R116: `bgtz $t0, -3` is 0x1D00FFFD. -/
theorem test_decode_bgtz : agree 0b000111_01000_00000_1111111111111101 (.bgtz 8 0xFFFD) = true := by decide

/-- R116: `bltz $t0, 4` is 0x05000004. -/
theorem test_decode_bltz : agree 0b000001_01000_00000_0000000000000100 (.bltz 8 4) = true := by decide

/-- R116: `bgez $t0, 4` is 0x05010004. -/
theorem test_decode_bgez : agree 0b000001_01000_00001_0000000000000100 (.bgez 8 4) = true := by decide

/-- R116: `lbu $t1, 0($gp)` is 0x93890000. -/
theorem test_decode_lbu : agree 0b100100_11100_01001_0000000000000000 (.lbu 9 28 0) = true := by decide

/-- R116: `lw $t4, 0($gp)` is 0x8F8C0000. -/
theorem test_decode_lw : agree 0b100011_11100_01100_0000000000000000 (.lw 12 28 0) = true := by decide

/-- R116: `sb $t3, 1($gp)` is 0xA38B0001. -/
theorem test_decode_sb : agree 0b101000_11100_01011_0000000000000001 (.sb 11 28 1) = true := by decide

/-- R116: `sw $t0, -4($sp)` is 0xAFA8FFFC. -/
theorem test_decode_sw : agree 0b101011_11101_01000_1111111111111100 (.sw 8 29 0xFFFC) = true := by decide

/-- R116: `jmp 6` is 0x08000006. -/
theorem test_decode_jmp : agree 0b000010_00000000000000000000000110 (.jmp 6) = true := by decide

/-- R116: `jal 6` is 0x0C000006. -/
theorem test_decode_jal : agree 0b000011_00000000000000000000000110 (.jal 6) = true := by decide

/-- R116: `exit` is 0x0000028C. -/
theorem test_decode_exit : agree 0b000000_00000000000000001010_001100 (.exit) = true := by decide

/-- R116: `pstr` is 0x0000010C. -/
theorem test_decode_pstr : agree 0b000000_00000000000000000100_001100 (.pstr) = true := by decide

/-- R116: `pch` is 0x000002CC. -/
theorem test_decode_pch : agree 0b000000_00000000000000001011_001100 (.pch) = true := by decide

/-- R116: `rch` is 0x0000030C. -/
theorem test_decode_rch : agree 0b000000_00000000000000001100_001100 (.rch) = true := by decide

/-- R116: `stra` is 0x0001FF8C. -/
theorem test_decode_stra : agree 0b000000_00000000011111111110_001100 (.stra) = true := by decide

/-- R116: `notr` is 0x0001FFCC. -/
theorem test_decode_notr : agree 0b000000_00000000011111111111_001100 (.notr) = true := by decide

/-- R108: shamt 31 of an add is ignored (95_test_vectors.md 2.6). -/
theorem test_decode_ignores_shamt : decode 0x01284FE1 = .ok (.add 9 9 8) := by decide

/-- Illegal words (95_test_vectors.md 2.5 and 2.6). -/
theorem test_decode_illegal :
    decode 0x20000000 = .error .illegalInstruction ∧ decode 0x00000001 = .error .illegalInstruction ∧
    decode 0x04020000 = .error .illegalInstruction ∧ decode 0x0000014C = .error .illegalSyscall := by decide

/-- `decodeTableWord`: bits above nbits are 0, and what the decoder refuses is none. -/
theorem test_decodeTableWord :
    decodeTableWord 32 0x24020005 = some (.addi 2 0 5) ∧ decodeTableWord 32 0x20000000 = none ∧
    decodeTableWord 8 0xFFFFFF02 = some (.srl 0 0 0) := by decide

/-! ### Register ALU (95_test_vectors.md 2.1) -/

theorem test_add_wraps : peek (exec (.add 10 8 9) (withT 0x7FFFFFFF 1)) (·.reg 10) = some 0x80000000 := by decide

/-- Register 0 keeps what is written to it (R32). -/
theorem test_add_writes_zero : peek (exec (.add 0 8 8) (withT 3 0)) (·.reg 0) = some 6 := by decide

theorem test_sub_wraps : peek (exec (.sub 10 8 9) (withT 0x80000000 1)) (·.reg 10) = some 0x7FFFFFFF := by decide

theorem test_sub_borrows : peek (exec (.sub 10 8 9) (withT 0 1)) (·.reg 10) = some 0xFFFFFFFF := by decide

/-- C4: HI is 2, not the source's 0. -/
theorem test_mul_wide :
    peek (exec (.mul 8 9) (withT 100000 100000)) (fun t => (t.hi, t.lo)) = some (2, 0x540BE400) := by decide

theorem test_mul_signed :
    peek (exec (.mul 8 9) (withT 3 0xFFFFFFFB)) (fun t => (t.hi, t.lo)) = some (0xFFFFFFFF, 0xFFFFFFF1) := by decide

theorem test_div_truncates :
    peek (exec (.div 8 9) (withT 0xFFFFFFF9 2)) (fun t => (t.lo, t.hi)) = some (0xFFFFFFFD, 0xFFFFFFFF) := by decide

theorem test_div_negative_divisor :
    peek (exec (.div 8 9) (withT 7 0xFFFFFFFE)) (fun t => (t.lo, t.hi)) = some (0xFFFFFFFD, 1) := by decide

theorem test_mfhi : peek (exec (.mfhi 17) (State.reset.setHiLo 1 0xFFFFFFFD)) (·.reg 17) = some 1 := by decide

theorem test_mflo : peek (exec (.mflo 2) (State.reset.setHiLo 1 0xFFFFFFFD)) (·.reg 2) = some 0xFFFFFFFD := by decide

theorem test_and : peek (exec (.and 10 8 9) (withT 0x0F0F0F0F 0x00FF00FF)) (·.reg 10) = some 0x000F000F := by decide

theorem test_or : peek (exec (.or 10 8 9) (withT 0x0F0F0F0F 0x00FF00FF)) (·.reg 10) = some 0x0FFF0FFF := by decide

theorem test_nor : peek (exec (.nor 10 8 9) (withT 0x0F0F0F0F 0x00FF00FF)) (·.reg 10) = some 0xF000F000 := by decide

theorem test_xor : peek (exec (.xor 10 8 9) (withT 0x0F0F0F0F 0x00FF00FF)) (·.reg 10) = some 0x0FF00FF0 := by decide

theorem test_sll_sign : peek (exec (.sll 10 8 31) (withT 1 0)) (·.reg 10) = some 0x80000000 := by decide

theorem test_sll_drops : peek (exec (.sll 10 8 1) (withT 0x80000001 0)) (·.reg 10) = some 2 := by decide

theorem test_srl_logical : peek (exec (.srl 10 8 1) (withT 0xFFFFFFFF 0)) (·.reg 10) = some 0x7FFFFFFF := by decide

theorem test_srl_31 : peek (exec (.srl 10 8 31) (withT 0x80000000 0)) (·.reg 10) = some 1 := by decide

/-! ### Immediate ALU (95_test_vectors.md 2.2) -/

theorem test_addi_sign_extends : peek (exec (.addi 10 8 0x8000) (withT 0 0)) (·.reg 10) = some 0xFFFF8000 := by decide

theorem test_addi_wraps : peek (exec (.addi 10 8 1) (withT 0x7FFFFFFF 0)) (·.reg 10) = some 0x80000000 := by decide

theorem test_andi_zero_extends : peek (exec (.andi 10 8 0x8000) (withT 0xFFFFFFFF 0)) (·.reg 10) = some 0x8000 := by
  decide

theorem test_ori_zero_extends : peek (exec (.ori 10 8 0x8000) (withT 0x80000000 0)) (·.reg 10) = some 0x80008000 := by
  decide

theorem test_xori_zero_extends : peek (exec (.xori 10 8 0xFFFF) (withT 0xFFFFFFFF 0)) (·.reg 10) = some 0xFFFF0000 := by
  decide

/-! ### Control transfer (95_test_vectors.md 2.3) -/

theorem test_jr : peek (exec (.jr 31) (State.reset.setReg 31 6)) (·.pc) = some 6 := by decide

theorem test_beq_taken : peek (exec (.beq 8 9 3) ((withT 7 7).setPc 0x100)) (·.pc) = some 0x110 := by decide

theorem test_beq_not_taken : peek (exec (.beq 8 9 3) ((withT 7 8).setPc 0x100)) (·.pc) = some 0x104 := by decide

theorem test_bne_itself : peek (exec (.bne 8 9 0xFFFF) ((withT 1 0).setPc 0x100)) (·.pc) = some 0x100 := by decide

theorem test_bne_not_taken : peek (exec (.bne 8 8 0xFFFF) ((withT 1 0).setPc 0x100)) (·.pc) = some 0x104 := by decide

theorem test_bgez_zero : peek (exec (.bgez 8 4) ((withT 0 0).setPc 0x40)) (·.pc) = some 0x54 := by decide

theorem test_bgez_negative : peek (exec (.bgez 8 4) ((withT 0x80000000 0).setPc 0x40)) (·.pc) = some 0x44 := by decide

theorem test_bgtz_back : peek (exec (.bgtz 8 0xFFFD) ((withT 4 0).setPc 0x10)) (·.pc) = some 0x08 := by decide

theorem test_bgtz_zero : peek (exec (.bgtz 8 0xFFFD) ((withT 0 0).setPc 0x10)) (·.pc) = some 0x14 := by decide

theorem test_blez_zero : peek (exec (.blez 8 2) (withT 0 0)) (·.pc) = some 0x0C := by decide

theorem test_blez_one : peek (exec (.blez 8 2) (withT 1 0)) (·.pc) = some 4 := by decide

theorem test_bltz_minus_one : peek (exec (.bltz 8 4) ((withT 0xFFFFFFFF 0).setPc 0x40)) (·.pc) = some 0x54 := by decide

theorem test_bltz_zero : peek (exec (.bltz 8 4) ((withT 0 0).setPc 0x40)) (·.pc) = some 0x44 := by decide

/-- The reach backwards from address 0 wraps. -/
theorem test_branch_wraps : peek (exec (.beq 0 0 0x8000) State.reset) (·.pc) = some 0xFFFE0004 := by decide

theorem test_jmp : peek (exec (.jmp 0x3FFFFFF) (pcAt 0x100)) (·.pc) = some 0x0FFFFFFC := by decide

theorem test_jal : peek (exec (.jal 6) (pcAt 8)) (fun t => (t.pc, t.reg 31)) = some (0x18, 0x0C) := by decide

/-- The region of the jump's own address is kept. -/
theorem test_jal_region : peek (exec (.jal 1) (pcAt 0xF0000000)) (·.pc) = some 0xF0000004 := by decide

/-! ### Loads and stores (95_test_vectors.md 2.4) -/

theorem test_lw : peek (exec (.lw 10 28 0) (withData 0)) (·.reg 10) = some 0x12345678 := by decide

/-- Alignment is checked before range (R247). -/
theorem test_lw_alignment_first :
    (recordOf (exec (.lw 10 8 0) (withData 0xFFFFFFFE))).map (·.cause) = some (.misalignedAccess 0xFFFFFFFE) := by decide

theorem test_lbu_low : peek (exec (.lbu 10 28 0) (withData 0)) (·.reg 10) = some 0x78 := by decide

theorem test_lbu_high : peek (exec (.lbu 10 28 3) (withData 0)) (·.reg 10) = some 0x12 := by decide

theorem test_sb : peek (exec (.sb 8 28 1) (withData 0xFFFFFFAB)) (·.mem.wordAt 0x400) = some 0x1234AB78 := by decide

theorem test_sb_last : peek (exec (.sb 8 0 0xFFFB) ((withData 0xAB).setReg 0 0x10000)) (·.mem.read 65531) = some 0xAB := by
  decide

theorem test_sw_bytes :
    peek (exec (.sw 8 29 0xFFFC) (withData 0x12345678))
      (fun t => [t.mem.read 0xFFC, t.mem.read 0xFFD, t.mem.read 0xFFE, t.mem.read 0xFFF]) =
      some [0x78, 0x56, 0x34, 0x12] := by decide

theorem test_sw_misaligned :
    peek (exec (.sw 8 28 1) (withData 5)) (·.mem) = some (withData 5).mem ∧
    (recordOf (exec (.sw 8 28 1) (withData 5))).map (·.cause) = some (.misalignedAccess 0x401) := by decide

/-! ### Syscalls (95_test_vectors.md 2.5); what the host answers is a free value, so no test names it -/

theorem test_exit : peek (exec .exit (pcAt 4)) (fun t => (t.pc, t.status)) = some (4, .halted) := by decide

/-- The request of a pstr is the string without its 0 byte. -/
theorem test_pstr_request :
    (scanString 5 (Memory.putWord [] 0x400 0x000A6948) 0x400).toOption = some [0x48, 0x69, 0x0A] := by decide

/-- A string that runs off memory faults at 65532, before any output. -/
theorem test_pstr_runs_off :
    peek (exec .pstr ((State.reset.setReg 4 65531).setMem [(65531, 1)])) (fun t => (ioHistory t.events, t.reg 2)) =
      some ([], 0) ∧
    (recordOf (exec .pstr ((State.reset.setReg 4 65531).setMem [(65531, 1)]))).map (·.cause) =
      some (.accessOutOfRange 65532) := by decide

/-- pch sends the low byte, and changes no register but x[2]. -/
theorem test_pch :
    peek (exec .pch (State.reset.setReg 4 0x141)) (fun t => (t.pc, t.reg 4)) = some (4, 0x141) ∧
    lowByte 0x141 = 0x41 := by decide

/-- R220, R223: a byte zero-extended, and the end marker. -/
theorem test_rch_answered :
    (finishRead (some (.byte 0xC1)) State.reset).reg 2 = 0xC1 ∧ (finishRead (some (.byte 0xC1)) State.reset).pc = 4 ∧
    (finishRead (some .endOfInput) State.reset).reg 2 = 0xFFFFFFFF := by decide

/-- R220, I16: a host that never answers leaves the core at the rch, blocked, and the next step leaves it there. -/
theorem test_rch_never_answered :
    (finishRead none (pcAt 8)).pc = 8 ∧ (finishRead none (pcAt 8)).reg 2 = 0 ∧
    peek (step (finishRead none (pcAt 8))) (fun t => (t.pc, t.blocked, t.status)) = some (8, true, .running) := by decide

/-- The stra step is not traced; the flag is set for the next. -/
theorem test_stra :
    peek (step (holding 0x0001FF8C)) (fun t => (t.trace, (traceHistory t.events).length)) = some (true, 0) := by decide

/-- The notr step is traced if tracing was on. -/
theorem test_notr :
    peek (step ((holding 0x0001FFCC).setTrace true)) (fun t => (t.trace, (traceHistory t.events).length)) =
      some (false, 1) := by decide

/-! ### Fetch, decode, faults and reset (95_test_vectors.md 2.6, 2.7 and part 3) -/

/-- P8: a misaligned PC faults with no word. -/
theorem test_fetch_misaligned :
    recordOf (step (pcAt 6)) = some { pc := 6, word := none, cause := .fetchMisaligned } := by decide

theorem test_fetch_out_of_range :
    recordOf (step (pcAt 65532)) = some { pc := 65532, word := none, cause := .fetchOutOfRange } := by decide

/-- P6: a divide by zero records the word. -/
theorem test_divide_by_zero_record :
    recordOf (step (holding 0x0100001A)) = some { pc := 0, word := some 0x0100001A, cause := .divideByZero } := by decide

theorem test_illegal_syscall_record :
    recordOf (step (holding 0x0000014C)) = some { pc := 0, word := some 0x0000014C, cause := .illegalSyscall } := by decide

/-- The codes of R240 and of R255. -/
theorem test_codes :
    [FaultCause.fetchMisaligned, .fetchOutOfRange, .illegalInstruction, .illegalSyscall, .divideByZero, .divideOverflow,
      .misalignedAccess 0, .accessOutOfRange 0].map FaultCause.code = [1, 2, 3, 4, 5, 6, 7, 8] ∧
    [LoadError.misalignedTextStart, .textBeyondData, .misalignedDataStart, .misalignedStackBottom, .stackBelowData,
      .segmentLengthNotWords, .segmentOutOfMemory].map LoadError.code = [1, 2, 3, 4, 5, 6, 7] := by decide

/-- `withFetchWord` puts the word where the very next step fetches it, from the state after reset. -/
theorem test_withFetchWord : peek (step (State.reset.withFetchWord 32 0x24020005)) (·.reg 2) = some 5 := by decide

/-- Log entry 26: a length of 0x80000000 is read unsigned, so it fails L7. -/
theorem test_length_unsigned : validate ⟨0, 0x80000000, 0x400, 0, 0x1000⟩ = some .segmentOutOfMemory := by decide

/-- The reset table of 95_test_vectors.md 2.7. -/
theorem test_validate :
    validate ⟨0, 8, 0x400, 0, 0x1000⟩ = none ∧
    validate ⟨2, 4, 0x400, 0, 0x1000⟩ = some .misalignedTextStart ∧
    validate ⟨0x800, 4, 0x400, 0, 0x1000⟩ = some .textBeyondData ∧
    validate ⟨0, 4, 0x402, 0, 0x1000⟩ = some .misalignedDataStart ∧
    validate ⟨0, 4, 0x400, 0, 0x1002⟩ = some .misalignedStackBottom ∧
    validate ⟨0, 4, 0x400, 0, 0x3FC⟩ = some .stackBelowData ∧
    validate ⟨0, 6, 0x400, 0, 0x1000⟩ = some .segmentLengthNotWords ∧
    validate ⟨0, 4, 0xFFF8, 8, 0xFFF8⟩ = some .segmentOutOfMemory ∧
    validate ⟨0x800, 4, 0x400, 0, 0x3FC⟩ = some .textBeyondData := by decide

/-- R273: where text and data overlap, the data word wins. -/
theorem test_data_wins :
    (initialMemory ⟨⟨0, 8, 4, 4, 8⟩, [0x11111111, 0x22222222], [0x33333333]⟩).wordAt 4 = 0x33333333 ∧
    (initialMemory ⟨⟨0, 8, 4, 4, 8⟩, [0x11111111, 0x22222222], [0x33333333]⟩).wordAt 0 = 0x11111111 := by decide

/-- R112 and R113. -/
theorem test_asm : asm (.sw 8 29 0xFFFC) = "sw $t0, -4($sp)" ∧ asm (.sll 0 0 0) = "sll $zero, $zero, 0" := by decide

/-! ### What meets the hypotheses of each statement -/

/-- DecodeOfEncode: a numeric assignment other than the default one, and the largest shift amount. -/
theorem test_meets_DecodeOfEncode :
    OpcodeMap.Distinct { opcodeMap with mul := 25, div := 27 } ∧ Instr.wellFormed (.sll 31 0 31) = true := by decide

/-- DecodeIgnoresExactlyUnusedFields: both sides hold of a word with ignored bits set, and neither of an illegal word. -/
theorem test_meets_DecodeIgnoresExactlyUnusedFields :
    decode 0x01284FE1 = .ok (.add 9 9 8) ∧ Instr.wellFormed (.add 9 9 8) = true ∧
    0x01284FE1#32 &&& Instr.usedBits (.add 9 9 8) = encode (.add 9 9 8) := by decide

theorem test_meets_DecodeAgreesWithOpcodeTable :
    decode 0x01284821 = .ok (.add 9 9 8) ∧ TableRow.matchesWord ⟨"add", 0xFC00003F, 0x21⟩ 0x01284821 = true ∧
    (opcodeTable.all fun row => !row.matchesWord 0x20000000) = true := by decide

theorem test_meets_StepRunsTheDecodedInstruction :
    (holding 0x24020005).status = .running ∧ (holding 0x24020005).blocked = false ∧
    fetchWord (holding 0x24020005).mem (holding 0x24020005).pc = .ok 0x24020005 ∧
    decode 0x24020005 = .ok (.addi 2 0 5) := by decide

/-- BlockedCoreMakesNoProgress: the state an unanswered rch leaves. -/
theorem test_meets_BlockedCoreMakesNoProgress :
    (finishRead none State.reset).status = .running ∧ (finishRead none State.reset).blocked = true := by decide

/-- FetchChecksThePc: the last fetchable PC, a misaligned PC inside and outside memory, and the aligned ones next to memory
on both sides. -/
theorem test_meets_FetchChecksThePc :
    ((pcAt 65528).pc.toNat % 4 = 0 ∧ 0 ≤ (pcAt 65528).pc.toInt ∧ (pcAt 65528).pc.toInt ≤ 65528) ∧
    ((pcAt 65531).status = .running ∧ (pcAt 65531).blocked = false ∧ (pcAt 65531).pc.toNat % 4 ≠ 0) ∧ (pcAt 65533).pc.toNat % 4 ≠ 0 ∧
    ((pcAt 65532).pc.toNat % 4 = 0 ∧ 65528 < (pcAt 65532).pc.toInt) ∧
    ((pcAt 0xFFFFFFFC).pc.toNat % 4 = 0 ∧ (pcAt 0xFFFFFFFC).pc.toInt < 0) := by decide

theorem test_meets_IllegalWordFaultsAtDecode :
    (holding 0x04020000).status = .running ∧ (holding 0x04020000).blocked = false ∧
    fetchWord (holding 0x04020000).mem (holding 0x04020000).pc = .ok 0x04020000 ∧
    decode 0x04020000 = .error .illegalInstruction ∧
    fetchWord (holding 0x0000014C).mem (holding 0x0000014C).pc = .ok 0x0000014C ∧
    decode 0x0000014C = .error .illegalSyscall := by decide

/-- TraceEventOfAStep: with tracing on and off, and with a fetch that fails. -/
theorem test_meets_TraceEventOfAStep :
    ((holding 0).status = .running ∧ (holding 0).blocked = false) ∧
    (∃ t, step ((holding 0).setTrace true) = .next t) ∧ (∃ t, step (holding 0) = .next t) ∧
    (∃ t, step ((pcAt 6).setTrace true) = .next t) := ⟨⟨rfl, rfl⟩, ⟨_, rfl⟩, ⟨_, rfl⟩, ⟨_, rfl⟩⟩

theorem test_meets_StepExistsExactlyWhenRunning :
    State.reset.status = .running ∧ (State.reset.setStatus .halted).status.terminal = true ∧
    powerOn.status = .loading ∧ (State.reset.setStatus .validating).status = .validating := by decide

/-- FaultCommitsNothing: a step that faults at fetch, at decode and in the instruction. -/
theorem test_meets_FaultCommitsNothing :
    (recordOf (step (pcAt 65532))).isSome = true ∧ (recordOf (step (holding 0x20000000))).isSome = true ∧
    (recordOf (step (holding 0x0100001A))).isSome = true := by decide

/-- StepKeepsTheInvariant: a state with an instruction in memory meets the invariant and has a next state. -/
theorem test_meets_StepKeepsTheInvariant :
    (holding 0x24020005).Inv ∧ ∃ t, step (holding 0x24020005) = .next t :=
  ⟨⟨by decide, rfl, fun _ h => (nomatch h), fun h => (nomatch h)⟩, _, rfl⟩

theorem test_meets_AddThenSubRestores : (10 : RegIndex) ≠ 8 ∧ (10 : RegIndex) ≠ 9 := by decide

/-- DivTruncatesOrFaults: each of the three ways, the last at the edges of the number range. -/
theorem test_meets_DivTruncatesOrFaults :
    (withT 5 0).reg 9 = 0 ∧
    ((withT 0x80000000 0xFFFFFFFF).reg 8 = 0x80000000 ∧ (withT 0x80000000 0xFFFFFFFF).reg 9 = 0xFFFFFFFF) ∧
    ((withT 0x80000000 1).reg 9 ≠ 0 ∧
      ¬ ((withT 0x80000000 1).reg 8 = 0x80000000 ∧ (withT 0x80000000 1).reg 9 = 0xFFFFFFFF)) ∧
    ((withT 0x7FFFFFFF 0xFFFFFFFF).reg 9 ≠ 0 ∧
      ¬ ((withT 0x7FFFFFFF 0xFFFFFFFF).reg 8 = 0x80000000 ∧ (withT 0x7FFFFFFF 0xFFFFFFFF).reg 9 = 0xFFFFFFFF)) ∧
    (0 ≤ ((withT 7 2).reg 8).toInt ∧ ((withT 0xFFFFFFF9 2).reg 8).toInt < 0) := by decide

/-- CallReturnsAfterTheJump: the state the jal leaves, with another register changed. -/
theorem test_meets_CallReturnsAfterTheJump :
    ∃ t, exec (.jal 6) (pcAt 8) = .next t ∧ (t.setReg 2 7).reg 31 = t.reg 31 := ⟨_, rfl, by decide⟩

theorem test_meets_BranchTargetReach : (0x100#32).toNat % 4 = 0 := by decide

theorem test_meets_JumpTargetOfAFetchableJump : fetchWord [] 65528 = .ok 0 := by decide

/-- LabelsAreReached: a label before and after the branch, and a jump to the last word below 2^28. -/
theorem test_meets_LabelsAreReached :
    labelOffset 0x10 8 = some 0xFFFD ∧ labelOffset 0x100 0x110 = some 3 ∧ labelOffset 0 0x20004 = none ∧
    ((8#32).toNat < 2 ^ 28 ∧ (0x0FFFFFFC#32).toNat < 2 ^ 28 ∧ (0x0FFFFFFC#32).toNat % 4 = 0) := by decide

/-- Byte accesses: the last byte, the first address past it, and the last address below 0. -/
theorem test_meets_LoadByteUnsigned :
    (effectiveAddress (withT 65531 0) 8 0).toNat < 65532 ∧ 65532 ≤ (effectiveAddress (withT 65531 0) 8 1).toInt ∧
    (effectiveAddress (withT 0 0) 8 0xFFFF).toInt < 0 := by decide

theorem test_meets_StoreByteLow :
    (effectiveAddress (withT 65532 9) 8 0xFFFF).toNat < 65532 ∧ 65532 ≤ (effectiveAddress (withT 65532 9) 8 0).toInt ∧
    (effectiveAddress (withT 0x80000000 9) 8 0).toInt < 0 := by decide

/-- Word accesses: the last word, a misaligned address inside and outside memory, and the aligned addresses next to
memory on both sides. -/
theorem test_meets_LoadWordAligned :
    ((effectiveAddress (withT 65528 0) 8 0).toNat % 4 = 0 ∧ (effectiveAddress (withT 65528 0) 8 0).toNat ≤ 65528) ∧
    (effectiveAddress (withT 65528 0) 8 2).toNat % 4 ≠ 0 ∧ (effectiveAddress (withT 0 0) 8 0xFFFE).toNat % 4 ≠ 0 ∧
    ((effectiveAddress (withT 65528 0) 8 4).toNat % 4 = 0 ∧ 65528 < (effectiveAddress (withT 65528 0) 8 4).toInt) ∧
    ((effectiveAddress (withT 0 0) 8 0xFFFC).toNat % 4 = 0 ∧ (effectiveAddress (withT 0 0) 8 0xFFFC).toInt < 0) := by decide

theorem test_meets_StoreWordAligned :
    ((effectiveAddress (withT 0 9) 8 0).toNat % 4 = 0 ∧ (effectiveAddress (withT 0 9) 8 0).toNat ≤ 65528) ∧
    (effectiveAddress (withT 0 9) 8 0x7FFF).toNat % 4 ≠ 0 ∧
    ((effectiveAddress (withT 65532 9) 8 0).toNat % 4 = 0 ∧ 65528 < (effectiveAddress (withT 65532 9) 8 0).toInt) ∧
    ((effectiveAddress (withT 0x80000000 9) 8 0).toNat % 4 = 0 ∧
      (effectiveAddress (withT 0x80000000 9) 8 0).toInt < 0) := by decide

/-- StoreThenLoadRoundTrip: the last word and the last byte, loaded back through another base register. -/
theorem test_meets_StoreThenLoadRoundTrip :
    ((effectiveAddress (withT 65528 65532) 8 0).toNat % 4 = 0 ∧ (effectiveAddress (withT 65528 65532) 8 0).toNat ≤ 65528) ∧
    peek (exec (.sw 9 8 0) (withT 65528 65532)) (fun t => effectiveAddress t 9 0xFFFC) =
      some (effectiveAddress (withT 65528 65532) 8 0) ∧
    (effectiveAddress (withT 65528 65532) 8 3).toNat < 65532 ∧
    peek (exec (.sb 9 8 3) (withT 65528 65532)) (fun t => effectiveAddress t 9 0xFFFF) =
      some (effectiveAddress (withT 65528 65532) 8 3) := by decide

/-- MixedWidthAccess: the last word of memory and its last byte. -/
theorem test_meets_MixedWidthAccess :
    (∃ m', writeWord [] 65528 0x12345678 = .ok m') ∧ readWord [] 65528 = .ok 0 ∧
    ∃ m', writeByte [] (65528 + BitVec.ofNat 32 3) 0xAB = .ok m' := ⟨⟨_, rfl⟩, by decide, ⟨_, rfl⟩⟩

/-- StoreIsSeenByTheNextFetch: the last instruction that has a word after it. -/
theorem test_meets_StoreIsSeenByTheNextFetch :
    ((withT 65528 0).setPc 65524).pc.toNat % 4 = 0 ∧ ((withT 65528 0).setPc 65524).pc.toNat ≤ 65524 ∧
    effectiveAddress ((withT 65528 0).setPc 65524) 8 0 = ((withT 65528 0).setPc 65524).pc + 4 := by decide

/-- PrintString: a string that ends on the last byte of memory. -/
theorem test_meets_PrintString_string :
    StringAt [(65529, 0x48), (65530, 0x69)] ((State.reset.setReg 4 65529).reg 4).toNat [0x48, 0x69] where
  inside := by decide
  byte := by decide
  terminator := by decide

/-- PrintString: no 0 byte before the end of memory. -/
theorem test_meets_PrintString_runs_off :
    ((State.reset.setReg 4 65531).reg 4).toNat < 65532 ∧
    ∀ a, ((State.reset.setReg 4 65531).reg 4).toNat ≤ a → a < 65532 → Memory.read [(65531, 1)] a ≠ 0 := by
  refine ⟨by decide, fun a h1 h2 => ?_⟩
  have : ((State.reset.setReg 4 65531).reg 4).toNat = 65531 := by decide
  have : a = 65531 := by omega
  subst this
  decide

/-- PrintString: a start address outside memory, on both sides. -/
theorem test_meets_PrintString_outside :
    65532 ≤ ((State.reset.setReg 4 65532).reg 4).toNat ∧ 65532 ≤ ((State.reset.setReg 4 0xFFFFFFFF).reg 4).toNat := by
  decide

theorem test_meets_RegisterWriters : ∃ t, exec (.addi 2 0 5) State.reset = .next t ∧ t.reg 2 ≠ State.reset.reg 2 :=
  ⟨_, rfl, by decide⟩

theorem test_meets_RegisterReaders : (2 : RegIndex) ∉ readRegs (.addi 2 0 5) ∧ (0 : RegIndex) ∉ readRegs .pstr := by
  decide

theorem test_meets_HiLoWritersAndReaders :
    (∃ t, exec (.mul 8 9) (withT 100000 100000) = .next t ∧ t.hi ≠ State.reset.hi) ∧
    ∀ rd, (Instr.add 2 8 9) ≠ .mfhi rd ∧ (Instr.add 2 8 9) ≠ .mflo rd := ⟨⟨_, rfl, by decide⟩, by simp⟩

/-- PcWriters: a transfer, a fall-through, and a step that ends the run. -/
theorem test_meets_PcWriters :
    State.reset.status = .running ∧ State.reset.blocked = false ∧ transferTarget (.jr 31) State.reset = some 0 ∧
    transferTarget (.bne 0 0 1) State.reset = none ∧ peek (exec (.bne 0 0 1) State.reset) (·.status) = some .running ∧
    transferTarget .exit State.reset = none ∧ peek (exec .exit State.reset) (·.status) = some .halted := by decide

/-- WriteAuthority: memory changed, the flag changed, the run halted, and the run faulted. -/
theorem test_meets_WriteAuthority :
    (∃ t, exec (.sb 8 28 1) (withData 0xAB) = .next t ∧ t.mem.read 0x401 ≠ (withData 0xAB).mem.read 0x401) ∧
    (∃ t, exec .stra State.reset = .next t ∧ t.trace ≠ State.reset.trace) ∧
    (∃ t, exec .exit State.reset = .next t ∧ t.status ≠ .running) ∧
    ∃ t, exec (.div 8 9) (withT 1 0) = .next t ∧ t.status ≠ .running :=
  ⟨⟨_, rfl, by decide⟩, ⟨_, rfl, by decide⟩, ⟨_, rfl, by decide⟩, _, rfl, by decide⟩

/-- TracingHasNoArchitecturalEffect: two states that differ in the flag, and a run of two steps from one. -/
theorem test_meets_TracingHasNoArchitecturalEffect :
    SameButTracing (holding 0x24020005) ((holding 0x24020005).setTrace true) ∧
    ∃ t, core.run 2 (holding 0x24020005) = .next t := ⟨⟨rfl, rfl, rfl, rfl, rfl, rfl, rfl, rfl⟩, _, rfl⟩

/-- RunningOffTheEnd: from the end of memory, and from the last word with tracing on. -/
theorem test_meets_RunningOffTheEnd :
    ((pcAt 65532).status = .running ∧ (pcAt 65532).blocked = false ∧ (pcAt 65532).pc.toNat % 4 = 0 ∧
      (pcAt 65532).pc.toNat ≤ 65532) ∧
    (((pcAt 65528).setTrace true).status = .running ∧ ((pcAt 65528).setTrace true).blocked = false ∧
      ((pcAt 65528).setTrace true).pc.toNat % 4 = 0 ∧ ((pcAt 65528).setTrace true).pc.toNat ≤ 65532) ∧
    ∀ a, ((pcAt 65528).setTrace true).pc.toNat ≤ a → ((pcAt 65528).setTrace true).mem.read a = 0 :=
  ⟨by decide, by decide, fun _ _ => rfl⟩

/-- RegistersAfterReset and MemoryAfterReset: a header that passes, with as many words as it says, the data ending on the
last byte of memory. -/
theorem test_meets_MemoryAfterReset :
    validate ⟨0, 4, 0xFFF8, 4, 0xFFF8⟩ = none ∧
    ([0x24020005] : List Word).length = (4#32).toNat / 4 ∧ ([7] : List Word).length = (4#32).toNat / 4 ∧
    (0#32).toNat + 4 * 0 + 4 ≤ (0xFFF8#32).toNat := by decide

theorem test_meets_RegistersAfterReset : validate ⟨0xFFF8, 4, 0xFFF8, 0, 0xFFF8⟩ = none := by decide

theorem test_meets_FailedLoadRunsNothing : validate ⟨0, 4, 0x400, 0, 0x3FC⟩ = some .stackBelowData := by decide

end Sys2Proof.Tests
end

section
/-!
SUPPORT. What an instruction reads, and that two executions which read alike act alike: `exec_actsAlike`. Claims about
what makes no difference to an instruction (R36, R38, R44) are derived from it.
-/

namespace Sys2Proof.Machine

/-! ### Writes to registers -/

theorem State.eq_of_reg_setReg_ne {s : State} {d r : RegIndex} {v : Word} (h : (s.setReg d v).reg r ≠ s.reg r) :
    d = r :=
  Classical.byContradiction fun hd => h (State.reg_setReg_other s d r v (Ne.symm hd))

theorem State.setReg_setReg_same (s : State) (r : RegIndex) (v w : Word) :
    (s.setReg r v).setReg r w = s.setReg r w := by
  simp [State.setReg]

theorem State.setReg_comm (s : State) {r q : RegIndex} (h : q ≠ r) (v w : Word) :
    (s.setReg r v).setReg q w = (s.setReg q w).setReg r v := by
  have : r.toNat ≠ q.toNat := fun e => h (BitVec.eq_of_toNat_eq e.symm)
  simp [State.setReg, Vector.set_comm v w this]

theorem State.setReg_overwrites_or_commutes (s : State) (r d : RegIndex) (v w : Word) :
    (s.setReg r v).setReg d w = s.setReg d w ∨
      (s.setReg r v).setReg d w = (s.setReg d w).setReg r v ∧ (s.setReg d w).reg r = s.reg r := by
  by_cases hd : d = r
  · exact .inl (by rw [hd, State.setReg_setReg_same])
  · exact .inr ⟨State.setReg_comm s hd v w, State.reg_setReg_other s d r w (Ne.symm hd)⟩

/-! ### What an instruction does to the state -/

/-- What an instruction does once it has read all it reads: the ways of `ExecCase` to end, as operations that can be
applied to two states. -/
inductive Effect where
  | write (d : RegIndex) (v : Word)
  | writeHiLo (hi lo : Word)
  | move (a : Word)
  | link (v a : Word)
  | fallThrough
  | store (m : Memory)
  | io (e : IoEvent) (v : Word)
  | block
  | switch (b : Bool)
  | halt
  | fault (c : FaultCause)

/-- The state after the effect. -/
def Effect.apply : Effect → State → State
  | .write d v, s => (s.setReg d v).advance
  | .writeHiLo hi lo, s => (s.setHiLo hi lo).advance
  | .move a, s => s.setPc a
  | .link v a, s => (s.setReg regRA v).setPc a
  | .fallThrough, s => s.advance
  | .store m, s => (s.setMem m).advance
  | .io e v, s => ((s.report (.io e)).setReg regV0 v).advance
  | .block, s => s.setBlocked true
  | .switch b, s => (s.setTrace b).advance
  | .halt, s => Machine.halt s
  | .fault c, s => raise c s

/-- Two executions with one and the same effect, each on its own state. -/
def ActsAlike (s s' : State) (o o' : Answer) : Prop :=
  ∃ e : Effect, o = .next (e.apply s) ∧ o' = .next (e.apply s')

/-- Two states that agree on all that the instruction reads: the PC, memory, the I/O interactions the host answers by,
the registers of R36, and HI or LO for mfhi or mflo (R38). -/
structure ReadsAlike (i : Instr) (s s' : State) : Prop where
  pc : s'.pc = s.pc
  mem : s'.mem = s.mem
  io : ioHistory s'.events = ioHistory s.events
  regs : ∀ r ∈ readRegs i, s'.reg r = s.reg r
  hi : ∀ rd, i = .mfhi rd → s'.hi = s.hi
  lo : ∀ rd, i = .mflo rd → s'.lo = s.lo

section actsAlike

variable {s s' : State}

theorem effectiveAddress_congr {rs : RegIndex} {imm : BitVec 16} (h : s'.reg rs = s.reg rs) :
    effectiveAddress s' rs imm = effectiveAddress s rs imm := by
  rw [effectiveAddress, effectiveAddress, h]

theorem writeAndNext_actsAlike (d : RegIndex) {v v' : Word} (hv : v' = v) :
    ActsAlike s s' (writeAndNext d v s) (writeAndNext d v' s') :=
  ⟨.write d v, rfl, by rw [hv]; rfl⟩

theorem transferTo_actsAlike {a a' : Word} (ha : a' = a) : ActsAlike s s' (transferTo a s) (transferTo a' s') :=
  ⟨.move a, rfl, by rw [ha]; rfl⟩

theorem branchIf_actsAlike {taken taken' : Bool} (imm : BitVec 16) (hpc : s'.pc = s.pc) (ht : taken' = taken) :
    ActsAlike s s' (branchIf taken imm s) (branchIf taken' imm s') := by
  subst ht
  cases taken' with
  | false => exact ⟨.fallThrough, rfl, rfl⟩
  | true => exact ⟨.move (branchTarget s.pc imm), rfl, by rw [← hpc]; rfl⟩

/-- An instruction that commits what it computed, or takes its fault. -/
theorem commit_actsAlike {α : Type} {r r' : Except FaultCause α} {f f' : α → State} (hr : r' = r)
    (hf : ∀ x, ActsAlike s s' (.next (f x).advance) (.next (f' x).advance)) :
    ActsAlike s s' (.next (commit s (r.map f))) (.next (commit s' (r'.map f'))) := by
  subst hr
  cases r' with
  | ok x => exact hf x
  | error c => exact ⟨.fault c, rfl, rfl⟩

theorem loadResult_actsAlike (rt : RegIndex) {r r' : Except FaultCause Word} (hr : r' = r) :
    ActsAlike s s' (loadResult rt r s) (loadResult rt r' s') :=
  commit_actsAlike hr fun v => writeAndNext_actsAlike rt (v := v) rfl

theorem storeResult_actsAlike {r r' : Except FaultCause Memory} (hr : r' = r) :
    ActsAlike s s' (storeResult r s) (storeResult r' s') :=
  commit_actsAlike hr fun m => ⟨.store m, rfl, rfl⟩

/-- The host answers a write alike after like histories (log entry 4). -/
theorem ioResult_hostWrite_actsAlike (hio : ioHistory s'.events = ioHistory s.events) {q q' : WriteRequest}
    {v v' : Word} (hq : q' = q) (hv : v' = v) :
    ActsAlike s s' (.next (ioResult (hostWrite s q v)).advance) (.next (ioResult (hostWrite s' q' v')).advance) := by
  subst hq hv
  refine ⟨.io (.wrote q' (Config.hostWrite (ioHistory s.events) q')) (hostWrite s q' v').2, rfl, ?_⟩
  rw [hostWrite_eq, hostWrite_eq, hio]
  rfl

/-- The host answers a read alike after like histories, or neither time (log entries 4 and 6). -/
theorem execRch_actsAlike (hio : ioHistory s'.events = ioHistory s.events) :
    ActsAlike s s' (execRch s) (execRch s') := by
  have hread : hostRead s' = hostRead s := congrArg Config.hostRead hio
  unfold execRch
  rw [hread]
  cases hostRead s with
  | some r => exact ⟨.io (.read r) (readValue r), rfl, rfl⟩
  | none => exact ⟨.block, rfl, rfl⟩

end actsAlike

/-- What an instruction does depends only on what it reads. -/
theorem exec_actsAlike {i : Instr} {s s' : State} (h : ReadsAlike i s s') :
    ActsAlike s s' (exec i s) (exec i s') := by
  obtain ⟨hpc, hmem, hio, hregs, hhi, hlo⟩ := h
  -- `hregs` becomes one equation for each register of the instruction's row
  cases i <;>
    simp only [readRegs, List.forall_mem_cons, List.not_mem_nil, false_implies, implies_true, and_true] at hregs
  case sll rd rt sh => exact writeAndNext_actsAlike rd (by rw [hregs])
  case srl rd rt sh => exact writeAndNext_actsAlike rd (by rw [hregs])
  case jr rs => exact transferTo_actsAlike hregs
  case mfhi rd => exact writeAndNext_actsAlike rd (hhi rd rfl)
  case mflo rd => exact writeAndNext_actsAlike rd (hlo rd rfl)
  case mul rs rt => exact ⟨.writeHiLo _ _, rfl, by rw [← hregs.1, ← hregs.2]; rfl⟩
  case div rs rt =>
    exact commit_actsAlike (by rw [hregs.1, hregs.2]) fun qr => ⟨.writeHiLo qr.2 qr.1, rfl, rfl⟩
  case add rd rs rt => exact writeAndNext_actsAlike rd (by rw [hregs.1, hregs.2])
  case sub rd rs rt => exact writeAndNext_actsAlike rd (by rw [hregs.1, hregs.2])
  case and rd rs rt => exact writeAndNext_actsAlike rd (by rw [hregs.1, hregs.2])
  case or rd rs rt => exact writeAndNext_actsAlike rd (by rw [hregs.1, hregs.2])
  case xor rd rs rt => exact writeAndNext_actsAlike rd (by rw [hregs.1, hregs.2])
  case nor rd rs rt => exact writeAndNext_actsAlike rd (by rw [hregs.1, hregs.2])
  case addi rt rs imm => exact writeAndNext_actsAlike rt (by rw [hregs])
  case andi rt rs imm => exact writeAndNext_actsAlike rt (by rw [hregs])
  case ori rt rs imm => exact writeAndNext_actsAlike rt (by rw [hregs])
  case xori rt rs imm => exact writeAndNext_actsAlike rt (by rw [hregs])
  case beq rs rt imm => exact branchIf_actsAlike imm hpc (by rw [hregs.1, hregs.2])
  case bne rs rt imm => exact branchIf_actsAlike imm hpc (by rw [hregs.1, hregs.2])
  case blez rs imm => exact branchIf_actsAlike imm hpc (by rw [hregs])
  case bgtz rs imm => exact branchIf_actsAlike imm hpc (by rw [hregs])
  case bltz rs imm => exact branchIf_actsAlike imm hpc (by rw [hregs])
  case bgez rs imm => exact branchIf_actsAlike imm hpc (by rw [hregs])
  case lw rt rs imm => exact loadResult_actsAlike rt (by rw [effectiveAddress_congr hregs, hmem])
  case lbu rt rs imm => exact loadResult_actsAlike rt (by rw [effectiveAddress_congr hregs, hmem])
  case sb rt rs imm =>
    exact storeResult_actsAlike (by rw [effectiveAddress_congr hregs.1, hregs.2, hmem])
  case sw rt rs imm =>
    exact storeResult_actsAlike (by rw [effectiveAddress_congr hregs.1, hregs.2, hmem])
  case jmp target => exact transferTo_actsAlike (by rw [hpc])
  case jal target => exact ⟨.link (s.pc + 4) (jumpTarget s.pc target), rfl, by rw [← hpc]; rfl⟩
  case pstr =>
    exact commit_actsAlike (by rw [hmem, regA0, hregs]) fun _ => ioResult_hostWrite_actsAlike hio rfl rfl
  case exit => exact ⟨.halt, rfl, rfl⟩
  case pch => exact ioResult_hostWrite_actsAlike hio (by rw [regA0, hregs]) (by rw [regA0, hregs])
  case rch => exact execRch_actsAlike hio
  case stra => exact ⟨.switch true, rfl, rfl⟩
  case notr => exact ⟨.switch false, rfl, rfl⟩

/-! ### Effects on states that differ in something no effect reads -/

/-- Setting a register before an effect that overwrites it makes no difference; before any other effect, it is as good
as setting it afterwards. -/
theorem Effect.apply_setReg (e : Effect) (s : State) (r : RegIndex) (v : Word) :
    e.apply (s.setReg r v) = e.apply s ∨
      e.apply (s.setReg r v) = (e.apply s).setReg r v ∧ (e.apply s).reg r = s.reg r := by
  cases e with
  | write d w =>
    exact (s.setReg_overwrites_or_commutes r d v w).imp (congrArg State.advance) (And.imp_left (congrArg State.advance))
  | link w a =>
    exact (s.setReg_overwrites_or_commutes r regRA v w).imp (congrArg (State.setPc · a))
      (And.imp_left (congrArg (State.setPc · a)))
  | io e w =>
    exact ((s.report (.io e)).setReg_overwrites_or_commutes r regV0 v w).imp (congrArg State.advance)
      (And.imp_left (congrArg State.advance))
  | _ => exact .inr ⟨rfl, rfl⟩

/-- Setting HI and LO before an effect that overwrites them makes no difference; before any other effect, it is as
good as setting them afterwards. -/
theorem Effect.apply_setHiLo (e : Effect) (s : State) (hi lo : Word) :
    e.apply (s.setHiLo hi lo) = e.apply s ∨
      e.apply (s.setHiLo hi lo) = (e.apply s).setHiLo hi lo ∧ (e.apply s).hi = s.hi ∧ (e.apply s).lo = s.lo := by
  cases e with
  | writeHiLo hi' lo' => exact .inl rfl
  | _ => exact .inr ⟨rfl, rfl, rfl⟩

end Sys2Proof.Machine
end

section
/-!
SUPPORT. States that differ only in tracing stay so under every operation, every effect and every step (R44, R258).
-/

namespace Sys2Proof.Machine

namespace SameButTracing

theorem refl (s : State) : SameButTracing s s := ⟨rfl, rfl, rfl, rfl, rfl, rfl, rfl, rfl⟩

theorem trans {s t u : State} (h : SameButTracing s t) (h' : SameButTracing t u) : SameButTracing s u :=
  ⟨h'.pc.trans h.pc, h'.regs.trans h.regs, h'.hi.trans h.hi, h'.lo.trans h.lo, h'.mem.trans h.mem,
    h'.status.trans h.status, h'.blocked.trans h.blocked, h'.io.trans h.io⟩

variable {s s' : State} (h : SameButTracing s s')
include h

theorem reg_eq (r : RegIndex) : s'.reg r = s.reg r := by rw [State.reg, State.reg, h.regs]

theorem setReg_congr (r : RegIndex) (v : Word) : SameButTracing (s.setReg r v) (s'.setReg r v) :=
  { h with regs := congrArg (·.set r.toNat v r.isLt) h.regs }

theorem setHiLo_congr (hi lo : Word) : SameButTracing (s.setHiLo hi lo) (s'.setHiLo hi lo) :=
  { h with hi := rfl, lo := rfl }

theorem setMem_congr (m : Memory) : SameButTracing (s.setMem m) (s'.setMem m) := { h with mem := rfl }

theorem setPc_congr (a : Word) : SameButTracing (s.setPc a) (s'.setPc a) := { h with pc := rfl }

theorem setTrace_congr (b : Bool) : SameButTracing (s.setTrace b) (s'.setTrace b) := { h with }

theorem setBlocked_congr (b : Bool) : SameButTracing (s.setBlocked b) (s'.setBlocked b) := { h with blocked := rfl }

theorem advance_congr : SameButTracing s.advance s'.advance := { h with pc := congrArg (· + 4) h.pc }

theorem reportIo_congr (e : IoEvent) : SameButTracing (s.report (.io e)) (s'.report (.io e)) :=
  { h with io := congrArg (e :: ·) h.io }

theorem endRun_congr (st : RunStatus) : SameButTracing (endRun st s) (endRun st s') := { h with status := rfl }

theorem fetchedWord_eq : fetchedWord s' = fetchedWord s := by
  rw [fetchedWord, fetchedWord, h.mem, h.pc]

theorem raise_congr (c : FaultCause) : SameButTracing (raise c s) (raise c s') := by
  rw [raise, raise, h.pc, h.fetchedWord_eq]
  exact h.endRun_congr _

theorem traceStep_congr (w : Word) : SameButTracing (traceStep w s) (traceStep w s') where
  pc := by simp [h.pc]
  regs := by simp [h.regs]
  hi := by simp [h.hi]
  lo := by simp [h.lo]
  mem := by simp [h.mem]
  status := by simp [h.status]
  blocked := by simp [h.blocked]
  io := by simp [h.io]

/-- Every effect keeps the likeness. -/
theorem apply_congr (e : Effect) : SameButTracing (e.apply s) (e.apply s') := by
  cases e with
  | write d v => exact (h.setReg_congr d v).advance_congr
  | writeHiLo hi lo => exact (h.setHiLo_congr hi lo).advance_congr
  | move a => exact h.setPc_congr a
  | link v a => exact (h.setReg_congr regRA v).setPc_congr a
  | fallThrough => exact h.advance_congr
  | store m => exact (h.setMem_congr m).advance_congr
  | io e v => exact ((h.reportIo_congr e).setReg_congr regV0 v).advance_congr
  | block => exact h.setBlocked_congr true
  | switch b => exact (h.setTrace_congr b).advance_congr
  | halt => exact h.endRun_congr .halted
  | fault c => exact h.raise_congr c

/-- No instruction reads the trace flag or a trace event. -/
theorem readsAlike (i : Instr) : ReadsAlike i s s' where
  pc := h.pc
  mem := h.mem
  io := h.io
  regs := fun r _ => h.reg_eq r
  hi := fun _ _ => h.hi
  lo := fun _ _ => h.lo

/-- An instruction keeps the likeness. -/
theorem exec_congr {i : Instr} {t : State} (ht : exec i s = .next t) :
    ∃ t', exec i s' = .next t' ∧ SameButTracing t t' := by
  obtain ⟨e, he, he'⟩ := exec_actsAlike (h.readsAlike i)
  obtain rfl : t = e.apply s := by simpa [he] using ht.symm
  exact ⟨_, he', h.apply_congr e⟩

/-- One step keeps the likeness. -/
theorem step_congr {t : State} (ht : step s = .next t) : ∃ t', step s' = .next t' ∧ SameButTracing t t' := by
  obtain ⟨hrun, hcases⟩ := step_cases ht
  have hrun' : s'.status = .running := h.status.trans hrun
  rcases hcases with ⟨hb, rfl⟩ | ⟨hb, hcases⟩
  · exact ⟨s', step_blocked hrun' (h.blocked.trans hb), h⟩
  rw [step_running hrun' (h.blocked.trans hb), h.mem, h.pc]
  rcases hcases with ⟨c, hf, rfl⟩ | ⟨w, k, hf, hd, rfl⟩ | ⟨w, i, hf, hd, hx⟩ <;> rw [hf]
  · exact ⟨_, rfl, h.raise_congr c⟩
  · exact ⟨_, by simp only [hd], (h.traceStep_congr w).raise_congr _⟩
  · simp only [hd]
    exact (h.traceStep_congr w).exec_congr hx

end SameButTracing

end Sys2Proof.Machine
end

section
/-!
PROOFS. The statements of 10_state.md: what every step keeps, and which instructions write and read each part of the
state.
-/

namespace Sys2Proof.Machine

/-! ### Tracing (R44, R258) -/

theorem run_succ_eq_next_iff (M : Host.Core) (n : Nat) (s t : M.State) :
    M.run (n + 1) s = .next t ↔ ∃ u, M.step s = .next u ∧ M.run n u = .next t := by
  rw [Host.Core.run]
  cases M.step s <;> simp

/-- Settles O50, by induction on the number of steps: every step keeps two states alike but for tracing. -/
theorem tracingHasNoArchitecturalEffect : Obligations.TracingHasNoArchitecturalEffect := by
  intro n
  induction n with
  | zero =>
    intro s s' t h ht
    cases ht
    exact ⟨s', rfl, h⟩
  | succ n ih =>
    intro s s' t h ht
    obtain ⟨u, hu, hrun⟩ := (run_succ_eq_next_iff core n s t).mp ht
    obtain ⟨u', hu', h'⟩ := h.step_congr hu
    obtain ⟨t', hrun', ht'⟩ := ih u u' t h' hrun
    exact ⟨t', (run_succ_eq_next_iff core n s' t').mpr ⟨u', hu', hrun'⟩, ht'⟩

/-! ### The invariant -/

theorem endReported_of_running {s : State} (hr : s.status = .running) : EndReported s ↔ noEnd s.events = true := by
  simp [EndReported, hr, RunStatus.terminal]

theorem endReported_endRun {s : State} {st : RunStatus} (hst : st.terminal = true) (h : noEnd s.events = true) :
    EndReported (endRun st s) := by
  rw [EndReported, (endRun_spec st s).status, if_pos hst]
  exact ⟨s.events, rfl, h⟩

theorem endReported_raise {s : State} (c : FaultCause) (h : noEnd s.events = true) : EndReported (raise c s) :=
  endReported_endRun rfl h

namespace ExecCase

variable {i : Instr} {s t : State} (h : ExecCase i s t)
include h

/-- An instruction keeps the canonical form of memory. -/
theorem mem_wf (hm : s.mem.wf) : t.mem.wf := by
  cases h with
  | stored m _ hwf => exact hwf hm
  | _ => exact hm

/-- A running machine is still running after an instruction, and no end was reported, or it halted or took a fault. -/
theorem status_cases (hr : s.status = .running) :
    (t.status = .running ∧ noEnd t.events = noEnd s.events) ∨ t = halt s ∨ ∃ c, t = raise c s := by
  cases h with
  | halted _ => exact .inr (.inl rfl)
  | faulted c _ => exact .inr (.inr ⟨c, rfl⟩)
  | _ => exact .inl ⟨hr, rfl⟩

theorem blocked_cases : t.blocked = s.blocked ∨ i = .rch ∧ hostRead s = none ∧ t = s.setBlocked true := by
  cases h with
  | blocked hi hn => exact .inr ⟨hi, hn, rfl⟩
  | _ => exact .inl rfl

end ExecCase

/-- The end of a run is reported once, in the step that ends it (R257). -/
theorem step_endReported {s t : State} (h : EndReported s) (hstep : step s = .next t) : EndReported t := by
  obtain ⟨hr, ⟨_, rfl⟩ | ⟨_, hcases⟩⟩ := step_cases hstep
  · exact h
  have hs : noEnd s.events = true := (endReported_of_running hr).mp h
  have htraced : ∀ w, noEnd (traceStep w s).events = true := fun w => (noEnd_traceStep w s).trans hs
  rcases hcases with ⟨c, _, rfl⟩ | ⟨w, k, _, _, rfl⟩ | ⟨w, i, _, _, hx⟩
  · exact endReported_raise c hs
  · exact endReported_raise _ (htraced w)
  · rcases (execCase_of_next hx).status_cases ((traceStep_status w s).trans hr) with ⟨ht, he⟩ | rfl | ⟨c, rfl⟩
    · exact (endReported_of_running ht).mpr (he.trans (htraced w))
    · exact endReported_endRun rfl (htraced w)
    · exact endReported_raise c (htraced w)

theorem step_mem_wf {s t : State} (h : s.mem.wf) (hstep : step s = .next t) : t.mem.wf := by
  obtain ⟨_, ⟨_, rfl⟩ | ⟨_, ⟨c, _, rfl⟩ | ⟨w, k, _, _, rfl⟩ | ⟨w, i, _, _, hx⟩⟩⟩ := step_cases hstep
  · exact h
  · exact h
  · simpa using h
  · exact (execCase_of_next hx).mem_wf (by simpa using h)

/-- A step enters a blocked state only through a rch the host never answers (R220). -/
theorem step_blockedAtRch {s t : State} (h : BlockedAtRch s) (hstep : step s = .next t) : BlockedAtRch t := by
  obtain ⟨hr, ⟨_, rfl⟩ | ⟨hb, hcases⟩⟩ := step_cases hstep
  · exact h
  have unblocked : t.blocked = false → BlockedAtRch t := fun hf ht => absurd (hf.symm.trans ht) (by decide)
  rcases hcases with ⟨c, _, rfl⟩ | ⟨w, k, _, _, rfl⟩ | ⟨w, i, hf, hd, hx⟩
  · exact unblocked hb
  · exact unblocked (by simpa using hb)
  · rcases (execCase_of_next hx).blocked_cases with ht | ⟨rfl, hn, rfl⟩
    · exact unblocked (by simpa [hb] using ht)
    · exact fun _ => ⟨by simpa using hr, hn, w, by simpa using hf, hd⟩

/-- The trace event of a step is a difference in tracing only. -/
theorem sameButTracing_traceStep (w : Word) (s : State) : SameButTracing s (traceStep w s) := by
  constructor <;> simp

/-- A fault commits nothing: set running again, the faulted state differs from the one before only in the end report. -/
theorem sameButTracing_rerun_raise {s : State} (hr : s.status = .running) (c : FaultCause) :
    SameButTracing s ((raise c s).setStatus .running) :=
  ⟨rfl, rfl, rfl, rfl, rfl, hr.symm, rfl, rfl⟩

/-- A step that faults was a fault taken from the state before it, with at most its trace event emitted (R241). -/
theorem step_faulted {s t : State} {record : FaultRecord} (hstep : step s = .next t)
    (ht : t.status = .faulted record) : ∃ c u, SameButTracing s u ∧ t = raise c u := by
  obtain ⟨hr, ⟨_, rfl⟩ | ⟨_, ⟨c, _, rfl⟩ | ⟨w, k, _, _, rfl⟩ | ⟨w, i, _, _, hx⟩⟩⟩ := step_cases hstep
  · exact absurd (hr.symm.trans ht) (by simp)
  · exact ⟨c, s, .refl s, rfl⟩
  · exact ⟨_, _, sameButTracing_traceStep w s, rfl⟩
  · rcases (execCase_of_next hx).status_cases ((traceStep_status w s).trans hr) with ⟨hrun, _⟩ | rfl | ⟨c, rfl⟩
    · exact absurd (hrun.symm.trans ht) (by simp)
    · exact absurd ((halt_spec _).status.symm.trans ht) (by simp)
    · exact ⟨c, _, sameButTracing_traceStep w s, rfl⟩

/-- A faulted state set running again differs from the state before the step only in tracing, so the same step, and with
it the same fault, is taken again (R127). -/
theorem step_faultPrecise {s t : State} (hstep : step s = .next t) : FaultPrecise t := by
  intro record ht
  obtain ⟨c, u, hu, rfl⟩ := step_faulted hstep ht
  have hrun : u.status = .running := hu.status.trans (step_cases hstep).1
  obtain ⟨t', ht', hsame⟩ := (hu.trans (sameButTracing_rerun_raise hrun c)).step_congr hstep
  exact ⟨t', ht', hsame.status.trans ht⟩

/-- Settles O14, part by part: only the precision of faults needs no part of the invariant beforehand. -/
theorem stepKeepsTheInvariant : Obligations.StepKeepsTheInvariant := by
  rintro s t ⟨hwf, hend, _, hblocked⟩ hstep
  exact ⟨step_mem_wf hwf hstep, step_endReported hend hstep, step_faultPrecise hstep,
    step_blockedAtRch hblocked hstep⟩

/-! ### Registers (R35, R36) -/

/-- Settles O45, by the ways an instruction ends that write a register. -/
theorem registerWriters : Obligations.RegisterWriters := by
  intro i s t r hx hne
  cases execCase_of_next hx with
  | wrote d v hw _ _ => exact State.eq_of_reg_setReg_ne hne ▸ hw
  | linked target hi =>
    subst hi
    exact congrArg some (State.eq_of_reg_setReg_ne (s := s) hne)
  | didIo e v hi =>
    have hr : 2 = r := State.eq_of_reg_setReg_ne (s := s.report (.io e)) hne
    rcases hi with rfl | rfl | rfl <;> exact congrArg some hr
  | _ => exact absurd rfl hne

/-- Settles O46: the effect of the instruction is the same with and without the register changed. -/
theorem registerReaders : Obligations.RegisterReaders := by
  intro i s r v hr
  have alike : ReadsAlike i s (s.setReg r v) :=
    ⟨rfl, rfl, rfl, fun q hq => State.reg_setReg_other s r q v fun e => hr (e ▸ hq), fun _ _ => rfl, fun _ _ => rfl⟩
  obtain ⟨e, ht, hu⟩ := exec_actsAlike alike
  refine ⟨_, _, ht, hu, ?_⟩
  rcases e.apply_setReg s r v with h | ⟨h, hkept⟩ <;> rw [h]
  · exact ⟨rfl, rfl, rfl, rfl, rfl, rfl, rfl, rfl, fun _ _ => rfl, .inl rfl⟩
  · exact ⟨rfl, rfl, rfl, rfl, rfl, rfl, rfl, rfl, fun q hq => State.reg_setReg_other _ r q v hq,
      .inr ⟨State.reg_setReg_same _ r v, hkept⟩⟩

/-! ### HI and LO (R37, R38) -/

/-- Settles O47: the writers by the ways an instruction ends, the readers by what makes no difference to its effect. -/
theorem hiLoWritersAndReaders : Obligations.HiLoWritersAndReaders := by
  refine ⟨fun i s t hx hne => ?_, fun i s hi lo hi' => ?_⟩
  · cases execCase_of_next hx with
    | wroteHiLo _ _ hi => exact hi
    | _ => exact (hne.elim (· rfl) (· rfl)).elim
  · have alike : ReadsAlike i s (s.setHiLo hi lo) :=
      ⟨rfl, rfl, rfl, fun _ _ => rfl, fun rd h => absurd h (hi' rd).1, fun rd h => absurd h (hi' rd).2⟩
    obtain ⟨e, ht, hu⟩ := exec_actsAlike alike
    refine ⟨_, _, ht, hu, ?_⟩
    rcases e.apply_setHiLo s hi lo with h | ⟨h, hhi, hlo⟩ <;> rw [h]
    · exact ⟨rfl, rfl, rfl, rfl, rfl, rfl, rfl, .inl ⟨rfl, rfl⟩⟩
    · exact ⟨rfl, rfl, rfl, rfl, rfl, rfl, rfl, .inr ⟨rfl, rfl, hhi, hlo⟩⟩

/-! ### The PC (R40) -/

/-- Where an instruction leaves the PC: at its transfer's target, past itself, or where it was when it ended the run or
never leaves its read. -/
theorem ExecCase.pc_cases {i : Instr} {s t : State} (h : ExecCase i s t) :
    (∃ a, transferTarget i s = some a ∧ t.pc = a) ∨
    transferTarget i s = none ∧
      (t.pc = s.pc + 4 ∧ t.status = s.status ∧ t.blocked = s.blocked ∨
       t.pc = s.pc ∧ (t.status ≠ .running ∨ t.blocked = true)) := by
  cases h with
  | wrote d v _ ht _ => exact .inr ⟨ht, .inl ⟨rfl, rfl, rfl⟩⟩
  | wroteHiLo hi lo hi' =>
    obtain ⟨rs, rt, rfl | rfl⟩ := hi' <;> exact .inr ⟨rfl, .inl ⟨rfl, rfl, rfl⟩⟩
  | moved a ht _ => exact .inl ⟨a, ht, rfl⟩
  | linked target hi =>
    subst hi
    exact .inl ⟨_, rfl, rfl⟩
  | notTaken ht _ _ _ => exact .inr ⟨ht, .inl ⟨rfl, rfl, rfl⟩⟩
  | stored m hi _ =>
    obtain ⟨rt, rs, imm, rfl | rfl⟩ := hi <;> exact .inr ⟨rfl, .inl ⟨rfl, rfl, rfl⟩⟩
  | didIo e v hi =>
    rcases hi with rfl | rfl | rfl <;> exact .inr ⟨rfl, .inl ⟨rfl, rfl, rfl⟩⟩
  | blocked hi _ =>
    subst hi
    exact .inr ⟨rfl, .inr ⟨rfl, .inr rfl⟩⟩
  | switched b hi =>
    rcases hi with rfl | rfl <;> exact .inr ⟨rfl, .inl ⟨rfl, rfl, rfl⟩⟩
  | halted hi =>
    subst hi
    exact .inr ⟨rfl, .inr ⟨rfl, .inl (by simp [(halt_spec s).status])⟩⟩
  | faulted c hi =>
    have ht : transferTarget i s = none := by
      rcases hi with ⟨rs, rt, rfl⟩ | rfl | ⟨rt, rs, imm, rfl | rfl | rfl | rfl⟩ <;> rfl
    exact .inr ⟨ht, .inr ⟨rfl, .inl (by simp)⟩⟩

/-- Settles O48, from where each way an instruction ends leaves the PC. -/
theorem pcWriters : Obligations.PcWriters := by
  intro i s t hx hr hb
  rcases (execCase_of_next hx).pc_cases with ⟨a, ht, hpc⟩ | ⟨ht, ⟨hpc, hr', hb'⟩ | ⟨hpc, hstop⟩⟩ <;> simp only [ht]
  · exact hpc
  · rw [if_pos ⟨hr'.trans hr, hb'.trans hb⟩]
    exact hpc
  · rw [if_neg (by rintro ⟨hr', hb'⟩; simp [hr', hb'] at hstop)]
    exact hpc

/-! ### Memory, the trace flag, the blocked core and the status -/

theorem ExecCase.store_of_mem_ne {i : Instr} {s t : State} (h : ExecCase i s t) (hne : t.mem ≠ s.mem) :
    ∃ rt rs imm, i = .sb rt rs imm ∨ i = .sw rt rs imm := by
  cases h with
  | stored m hi _ => exact hi
  | _ => exact absurd rfl hne

theorem ExecCase.switch_of_trace_ne {i : Instr} {s t : State} (h : ExecCase i s t) (hne : t.trace ≠ s.trace) :
    i = .stra ∨ i = .notr := by
  cases h with
  | switched b hi => exact hi
  | _ => exact absurd rfl hne

/-- Settles O49: each part of the state by the ways an instruction ends. -/
theorem writeAuthority : Obligations.WriteAuthority := by
  intro i s t hx
  have h := execCase_of_next hx
  refine ⟨fun ⟨a, ha⟩ => h.store_of_mem_ne fun e => ha (by rw [e]), h.switch_of_trace_ne,
    fun hi => h.blocked_cases.resolve_right fun hrch => hi hrch.1, fun hr hstop => ?_⟩
  cases h with
  | halted hi => exact .inl ⟨rfl, hi⟩
  | faulted c hi => exact .inr ⟨⟨_, rfl⟩, hi⟩
  | _ => exact absurd hr hstop

end Sys2Proof.Machine
end

section
/-!
PROOFS. The statements of 20_memory.md: what the fetch checks, and that the byte view, the word view and the fetch read
the same bytes.
-/

namespace Sys2Proof.Machine

/-! ### Addresses -/

/-- A bound of signed addresses, read on the unsigned address (R63). -/
theorem lt_toNat_of_toInt_outside {a : Word} {n : Nat} (hn : n < 2 ^ 31) (h : a.toInt < 0 ∨ (n : Int) < a.toInt) :
    n < a.toNat := by
  rw [BitVec.toInt_eq_toNat_cond] at h
  split at h <;> omega

/-- No byte of a word in memory lies past the wrap of addresses. -/
theorem toNat_add_of_wordInside {a : Word} {k : Nat} (ha : a.toNat + 4 ≤ memBytes) (hk : k ≤ 4) :
    (a + BitVec.ofNat 32 k).toNat = a.toNat + k := by
  have : memBytes < 2 ^ 31 := by decide
  rw [BitVec.toNat_add, BitVec.toNat_ofNat]
  omega

/-! ### When the memory interface answers (R64 to R68) -/

theorem readByte_of_inside {a : Word} (m : Memory) (ha : a.toNat < memBytes) :
    readByte m a = .ok (m.read a.toNat) := by
  obtain ⟨_, e⟩ | ⟨hout, _⟩ := readByte_cases m a
  · exact e
  · omega

theorem readWord_of_inside {a : Word} (m : Memory) (h4 : a.toNat % 4 = 0) (ha : a.toNat + 4 ≤ memBytes) :
    readWord m a = .ok (m.wordAt a.toNat) := by
  obtain ⟨_, _, e⟩ | ⟨_, hout, _⟩ | ⟨hmis, _⟩ := readWord_cases m a
  · exact e
  · omega
  · exact absurd h4 hmis

theorem writeWord_of_inside {a : Word} (m : Memory) (v : Word) (h4 : a.toNat % 4 = 0) (ha : a.toNat + 4 ≤ memBytes) :
    writeWord m a v = .ok (m.putWord a.toNat v) := by
  obtain ⟨_, _, e⟩ | ⟨_, hout, _⟩ | ⟨hmis, _⟩ := writeWord_cases m a v
  · exact e
  · omega
  · exact absurd h4 hmis

theorem fetchWord_of_inside {a : Word} (m : Memory) (h4 : a.toNat % 4 = 0) (ha : a.toNat + 4 ≤ memBytes) :
    fetchWord m a = .ok (m.wordAt a.toNat) := by
  obtain ⟨_, _, e⟩ | ⟨_, hout, _⟩ | ⟨hmis, _⟩ := fetchWord_cases m a
  · exact e
  · omega
  · exact absurd h4 hmis

theorem fetchWord_of_outside {a : Word} (m : Memory) (h4 : a.toNat % 4 = 0) (ha : memBytes < a.toNat + 4) :
    fetchWord m a = .error .fetchOutOfRange := by
  obtain ⟨_, hin, _⟩ | ⟨_, _, e⟩ | ⟨hmis, _⟩ := fetchWord_cases m a
  · omega
  · exact e
  · exact absurd h4 hmis

theorem fetchWord_of_misaligned {a : Word} (m : Memory) (h4 : a.toNat % 4 ≠ 0) :
    fetchWord m a = .error .fetchMisaligned := by
  obtain ⟨h, _⟩ | ⟨h, _⟩ | ⟨_, e⟩ := fetchWord_cases m a
  · exact absurd h h4
  · exact absurd h h4
  · exact e

theorem readWord_eq_ok {m : Memory} {a v : Word} (h : readWord m a = .ok v) :
    a.toNat % 4 = 0 ∧ a.toNat + 4 ≤ memBytes ∧ v = m.wordAt a.toNat := by
  obtain ⟨h4, hin, e⟩ | ⟨_, _, e⟩ | ⟨_, e⟩ := readWord_cases m a <;> rw [e] at h <;> cases h
  exact ⟨h4, hin, rfl⟩

theorem writeByte_eq_ok {m m' : Memory} {a : Word} {b : Byte} (h : writeByte m a b = .ok m') :
    m' = m.write a.toNat b := by
  obtain ⟨_, e⟩ | ⟨_, e⟩ := writeByte_cases m a b <;> rw [e] at h <;> cases h
  rfl

theorem writeWord_eq_ok {m m' : Memory} {a v : Word} (h : writeWord m a v = .ok m') :
    a.toNat + 4 ≤ memBytes ∧ m' = m.putWord a.toNat v := by
  obtain ⟨_, hin, e⟩ | ⟨_, _, e⟩ | ⟨_, e⟩ := writeWord_cases m a v <;> rw [e] at h <;> cases h
  exact ⟨hin, rfl⟩

/-! ### Fetch (R68, R121) -/

/-- A fetch that faults ends the step, before any word is known or traced. -/
theorem step_of_fetch_error {s : State} {c : FaultCause} (hr : s.status = .running) (hb : s.blocked = false)
    (hf : fetchWord s.mem s.pc = .error c) :
    ∃ t, step s = .next t ∧ EndedWith (.faulted { pc := s.pc, word := none, cause := c }) s t := by
  have hword : fetchedWord s = none := by rw [fetchedWord, hf]
  have hspec : TookFault c s (raise c s) := raise_spec c s
  rw [TookFault, hword] at hspec
  refine ⟨raise c s, ?_, hspec⟩
  rw [step_running hr hb, hf]

/-- Settles O8, from what the fetch answers for each kind of PC. -/
theorem fetchChecksThePc : Obligations.FetchChecksThePc := by
  intro s hr hb
  refine ⟨fun h4 h0 hle => ?_, fun h4 => ?_, fun h4 hout => ?_⟩
  · have hin : s.pc.toNat + 4 ≤ memBytes :=
      (inRange_iff s.pc 4 (by decide)).mp (decide_eq_true ⟨h0, by simp only [memBytes]; omega⟩)
    exact fetchWord_of_inside s.mem h4 hin
  · exact step_of_fetch_error hr hb (fetchWord_of_misaligned s.mem h4)
  · have hlt : 65528 < s.pc.toNat := lt_toNat_of_toInt_outside (by decide) hout
    exact step_of_fetch_error hr hb (fetchWord_of_outside s.mem h4 (by simp only [memBytes]; omega))

/-! ### The two views of memory (R62) -/

/-- In the default byte order, byte k of a word in memory is the byte k past its address (R60, R62). -/
theorem Memory.extractLsb'_wordAt (m : Memory) (a : Nat) {k : Nat} (hk : k < 4) :
    (m.wordAt a).extractLsb' (8 * k) 8 = m.read (a + k) :=
  m.byteOfWord_wordAt a k hk

/-- A byte read of a word written gives that byte of the word. -/
theorem Memory.read_putWord_byte (m : Memory) (a : Nat) (v : Word) {k : Nat} (hk : k < 4) :
    (m.putWord a v).read (a + k) = v.extractLsb' (8 * k) 8 := by
  rw [← Memory.extractLsb'_wordAt _ a hk, Memory.wordAt_putWord_same]

/-- Settles O38: both views are read byte by byte. -/
theorem mixedWidthAccess : Obligations.MixedWidthAccess := by
  intro m m' a v old b k hk
  refine ⟨fun hw => ?_, fun hr hw => ?_⟩
  · obtain ⟨hin, rfl⟩ := writeWord_eq_ok hw
    have haddr := toNat_add_of_wordInside hin hk.le
    rw [readByte_of_inside _ (by omega), haddr, Memory.read_putWord_byte m _ v hk]
  · obtain ⟨h4, hin, rfl⟩ := readWord_eq_ok hr
    obtain rfl := writeByte_eq_ok hw
    rw [toNat_add_of_wordInside hin hk.le]
    refine ⟨_, readWord_of_inside _ h4 hin, ?_, fun j hj hne => ?_⟩
    · rw [Memory.extractLsb'_wordAt _ _ hk, Memory.read_write_same]
    · rw [Memory.extractLsb'_wordAt _ _ hj, Memory.extractLsb'_wordAt _ _ hj, Memory.read_write_other (by omega)]

/-! ### A store over the next instruction (R77) -/

/-- A sw inside memory, read as one update of the state (R204). -/
theorem exec_sw_of_inside {rt rs : RegIndex} {imm : BitVec 16} {s : State}
    (h4 : (effectiveAddress s rs imm).toNat % 4 = 0) (hin : (effectiveAddress s rs imm).toNat + 4 ≤ memBytes) :
    exec (.sw rt rs imm) s =
      .next (s.setMem (s.mem.putWord (effectiveAddress s rs imm).toNat (s.reg rt))).advance := by
  have hw := writeWord_of_inside s.mem (s.reg rt) h4 hin
  change storeResult (writeWord s.mem (effectiveAddress s rs imm) (s.reg rt)) s = _
  rw [hw]
  rfl

/-- Settles O39: the sw leaves the PC at the word it wrote, and the fetch reads that word back. -/
theorem storeIsSeenByTheNextFetch : Obligations.StoreIsSeenByTheNextFetch := by
  intro rt rs imm s h4 hle hea
  have hnext : (s.pc + 4).toNat = s.pc.toNat + 4 := toNat_add_of_wordInside (by simp only [memBytes]; omega) le_rfl
  have h4' : (s.pc + 4).toNat % 4 = 0 := by omega
  have hin : (s.pc + 4).toNat + 4 ≤ memBytes := by simp only [memBytes]; omega
  refine ⟨_, exec_sw_of_inside (hea ▸ h4') (hea ▸ hin), ?_⟩
  simp only [State.advance_mem, State.advance_pc, State.setMem_mem, State.setMem_pc, hea]
  rw [fetchWord_of_inside _ h4' hin, Memory.wordAt_putWord_same]

end Sys2Proof.Machine
end

section
/-!
SUPPORT. A word known by its fields, with and without a mask, and what the decoder answers under any numeric assignment
without a clash: `decodeWith_eq_ok_iff` and `decodeWith_eq_error_iff`.
-/

namespace Sys2Proof

/-! ### A word known by its fields (R92 to R95) -/

section layouts

variable (m : OpcodeMap) (w : Word) (op f : BitVec 6) (rs rt rd sh : BitVec 5) (imm : BitVec 16) (t : BitVec 26)
  (c : BitVec 20)

theorem eq_wordR_iff : w = wordR m f rs rt rd sh ↔
    fieldOp w = m.special ∧ fieldFunct w = f ∧
      rs = fieldRs w ∧ rt = fieldRt w ∧ rd = fieldRd w ∧ sh = fieldShamt w := by
  refine ⟨fun h => by simp [h], fun ⟨hop, hf, hrs, hrt, hrd, hsh⟩ => ?_⟩
  rw [word_eq_fieldsR w, hop, hf, ← hrs, ← hrt, ← hrd, ← hsh, wordR]

theorem eq_wordI_iff : w = wordI op rs rt imm ↔
    fieldOp w = op ∧ rs = fieldRs w ∧ rt = fieldRt w ∧ imm = fieldImm w := by
  refine ⟨fun h => by simp [h], fun ⟨hop, hrs, hrt, himm⟩ => ?_⟩
  rw [word_eq_fieldsI w, hop, ← hrs, ← hrt, ← himm, wordI]

theorem eq_wordJ_iff : w = wordJ op t ↔ fieldOp w = op ∧ t = fieldTarget w := by
  refine ⟨fun h => by simp [h], fun ⟨hop, ht⟩ => ?_⟩
  rw [word_eq_fieldsJ w, hop, ← ht, wordJ]

theorem eq_wordS_iff : w = wordS m c ↔ fieldOp w = m.special ∧ fieldFunct w = m.syscall ∧ fieldCode w = c := by
  refine ⟨fun h => by simp [h], fun ⟨hop, hf, hc⟩ => ?_⟩
  rw [word_eq_fieldsS w, hop, hf, hc, wordS]

end layouts

/-! ### The fields of a masked word -/

section masks

variable (w k : Word) (n : Nat)

@[simp] theorem fieldOp_and : fieldOp (w &&& k) = fieldOp w &&& fieldOp k := BitVec.extractLsb'_and
@[simp] theorem fieldRs_and : fieldRs (w &&& k) = fieldRs w &&& fieldRs k := BitVec.extractLsb'_and
@[simp] theorem fieldRt_and : fieldRt (w &&& k) = fieldRt w &&& fieldRt k := BitVec.extractLsb'_and
@[simp] theorem fieldRd_and : fieldRd (w &&& k) = fieldRd w &&& fieldRd k := BitVec.extractLsb'_and
@[simp] theorem fieldShamt_and : fieldShamt (w &&& k) = fieldShamt w &&& fieldShamt k := BitVec.extractLsb'_and
@[simp] theorem fieldFunct_and : fieldFunct (w &&& k) = fieldFunct w &&& fieldFunct k := BitVec.extractLsb'_and
@[simp] theorem fieldImm_and : fieldImm (w &&& k) = fieldImm w &&& fieldImm k := BitVec.extractLsb'_and

@[simp] theorem fieldOp_ofNat : fieldOp (BitVec.ofNat 32 n) = (BitVec.ofNat 32 n).extractLsb' 26 6 := rfl
@[simp] theorem fieldRs_ofNat : fieldRs (BitVec.ofNat 32 n) = (BitVec.ofNat 32 n).extractLsb' 21 5 := rfl
@[simp] theorem fieldRt_ofNat : fieldRt (BitVec.ofNat 32 n) = (BitVec.ofNat 32 n).extractLsb' 16 5 := rfl
@[simp] theorem fieldRd_ofNat : fieldRd (BitVec.ofNat 32 n) = (BitVec.ofNat 32 n).extractLsb' 11 5 := rfl
@[simp] theorem fieldShamt_ofNat : fieldShamt (BitVec.ofNat 32 n) = (BitVec.ofNat 32 n).extractLsb' 6 5 := rfl
@[simp] theorem fieldFunct_ofNat : fieldFunct (BitVec.ofNat 32 n) = (BitVec.ofNat 32 n).extractLsb' 0 6 := rfl
@[simp] theorem fieldImm_ofNat : fieldImm (BitVec.ofNat 32 n) = (BitVec.ofNat 32 n).extractLsb' 0 16 := rfl

@[simp] theorem and_ones_word : w &&& 0xFFFFFFFF#32 = w := BitVec.and_allOnes
@[simp] theorem and_ones_six (x : BitVec 6) : x &&& 63#6 = x := BitVec.and_allOnes
@[simp] theorem and_ones_five (x : BitVec 5) : x &&& 31#5 = x := BitVec.and_allOnes
@[simp] theorem and_ones_imm (x : BitVec 16) : x &&& 0xFFFF#16 = x := BitVec.and_allOnes

end masks

/-! ### What the decoder answers -/

/-- The answer of the decoder, by the conditions of R96 and R105. -/
theorem decodeWith_eq (m : OpcodeMap) (w : Word) :
    decodeWith m w =
      if fieldOp w = m.special then
        if fieldFunct w = m.syscall then select .illegalSyscall (fieldCode w) (syscallTable m)
        else select .illegalInstruction (fieldFunct w) (registerTable m w)
      else if fieldOp w = m.jmp ∨ fieldOp w = m.jal then select .illegalInstruction (fieldOp w) (jumpTable m w)
      else if fieldOp w = m.regimm then select .illegalInstruction (fieldRt w) (regimmTable m w)
      else select .illegalInstruction (fieldOp w) (immediateTable m w) := by
  unfold decodeWith classify
  split_ifs <;> rfl

/-- One of the decoder's five tables lists the instruction for the word. -/
def Listed (m : OpcodeMap) (w : Word) (i : Instr) : Prop :=
  (fieldOp w = m.special ∧ fieldFunct w = m.syscall ∧ (fieldCode w, i) ∈ syscallTable m) ∨
  (fieldOp w = m.special ∧ (fieldFunct w, i) ∈ registerTable m w) ∨
  (fieldOp w, i) ∈ jumpTable m w ∨
  (fieldOp w = m.regimm ∧ (fieldRt w, i) ∈ regimmTable m w) ∨
  (fieldOp w, i) ∈ immediateTable m w

section codes

variable (m : OpcodeMap) (w : Word)

/-- The codes a table of the decoder lists. -/
abbrev listedCodes {n : Nat} (rows : List (BitVec n × Instr)) : List (BitVec n) := rows.map Prod.fst

theorem not_listed {n : Nat} {c : BitVec n} {rows : List (BitVec n × Instr)} (h : c ∉ listedCodes rows) (i : Instr) :
    (c, i) ∉ rows :=
  fun hi => h (List.mem_map_of_mem (f := Prod.fst) hi)

theorem OpcodeMap.primaries_eq :
    m.primaries = m.special :: m.regimm :: (listedCodes (jumpTable m w) ++ listedCodes (immediateTable m w)) := rfl

theorem OpcodeMap.functs_perm : m.functs.Perm (m.syscall :: listedCodes (registerTable m w)) :=
  List.perm_middle (l₁ := [m.sll, m.srl, m.jr])

theorem mem_listedCodes_jumpTable (c : BitVec 6) : c ∈ listedCodes (jumpTable m w) ↔ c = m.jmp ∨ c = m.jal := by
  simp [jumpTable]

end codes

section distinct

variable {m : OpcodeMap} (hm : m.Distinct) (w : Word)
include hm

/-- The two primary opcodes with a table of their own, the jumps' and the others are all different. -/
theorem OpcodeMap.Distinct.primaries_split :
    (m.special ≠ m.regimm ∧ m.special ∉ listedCodes (jumpTable m w) ∧ m.special ∉ listedCodes (immediateTable m w)) ∧
    (m.regimm ∉ listedCodes (jumpTable m w) ∧ m.regimm ∉ listedCodes (immediateTable m w)) ∧
    (listedCodes (jumpTable m w) ++ listedCodes (immediateTable m w)).Nodup := by
  obtain ⟨hprim, -⟩ := hm
  rw [m.primaries_eq w, List.nodup_cons, List.nodup_cons] at hprim
  simpa only [List.mem_cons, List.mem_append, not_or] using hprim

theorem OpcodeMap.Distinct.functs_nodup : (m.syscall :: listedCodes (registerTable m w)).Nodup := by
  obtain ⟨-, hfuncts, -⟩ := hm
  exact (m.functs_perm w).nodup_iff.mp hfuncts

theorem OpcodeMap.Distinct.subcodes_nodup : (listedCodes (regimmTable m w)).Nodup := by
  obtain ⟨-, -, hsub, -⟩ := hm
  simpa [regimmTable] using hsub

theorem OpcodeMap.Distinct.codes_nodup : (listedCodes (syscallTable m)).Nodup := by
  obtain ⟨-, -, -, hcodes⟩ := hm
  exact hcodes

/-- Under an assignment without a clash, a word decodes to what the tables list for it, and to nothing else. -/
theorem decodeWith_eq_ok_iff (i : Instr) : decodeWith m w = .ok i ↔ Listed m w i := by
  obtain ⟨⟨hspecial, hspecialJ, hspecialI⟩, ⟨hregimmJ, hregimmI⟩, hJI⟩ := hm.primaries_split w
  obtain ⟨hJ, hI, hJI⟩ := List.nodup_append.mp hJI
  obtain ⟨hsyscall, hR⟩ := List.nodup_cons.mp (hm.functs_nodup w)
  rw [decodeWith_eq, Listed]
  split_ifs with hop hf hj hr
  · rw [select_eq_ok_iff _ _ _ hm.codes_nodup]
    simp [hop, hf, hspecial, not_listed hsyscall, not_listed hspecialJ, not_listed hspecialI]
  · rw [select_eq_ok_iff _ _ _ hR]
    simp [hop, hf, hspecial, not_listed hspecialJ, not_listed hspecialI]
  · rw [← mem_listedCodes_jumpTable m w] at hj
    have hr : fieldOp w ≠ m.regimm := fun h => hregimmJ (h ▸ hj)
    have hi : fieldOp w ∉ listedCodes (immediateTable m w) := fun h => hJI _ hj _ h rfl
    rw [select_eq_ok_iff _ _ _ hJ]
    simp [hop, hr, not_listed hi]
  · rw [select_eq_ok_iff _ _ _ (hm.subcodes_nodup w)]
    simp [hr, hspecial.symm, not_listed hregimmJ, not_listed hregimmI]
  · rw [← mem_listedCodes_jumpTable m w] at hj
    rw [select_eq_ok_iff _ _ _ hI]
    simp [hop, hr, not_listed hj]

/-- Under an assignment without a clash, a word is illegal when the map lacks its codes (R107). -/
theorem decodeWith_eq_error_iff (k : IllegalKind) :
    decodeWith m w = .error k ↔
      (k = .illegalSyscall ∧ fieldOp w = m.special ∧ fieldFunct w = m.syscall ∧ fieldCode w ∉ m.codes) ∨
      (k = .illegalInstruction ∧
        ((fieldOp w = m.special ∧ fieldFunct w ∉ m.functs) ∨
         (fieldOp w = m.regimm ∧ fieldRt w ∉ [m.bltz, m.bgez]) ∨ fieldOp w ∉ m.primaries)) := by
  obtain ⟨⟨hspecial, -, -⟩, ⟨hregimmJ, -⟩, -⟩ := hm.primaries_split w
  have hcodes : m.codes = listedCodes (syscallTable m) := rfl
  have hsubcodes : [m.bltz, m.bgez] = listedCodes (regimmTable m w) := rfl
  rw [decodeWith_eq, m.primaries_eq w, (m.functs_perm w).mem_iff, hcodes, hsubcodes]
  split_ifs with hop hf hj hr <;> rw [select_eq_error_iff]
  · simp [hop, hf, hspecial]
  · simp [hop, hf, hspecial]
  · rw [← mem_listedCodes_jumpTable m w] at hj
    have hr : fieldOp w ≠ m.regimm := fun h => hregimmJ (h ▸ hj)
    simp [hop, hr, hj]
  · simp [hr, hspecial.symm]
  · rw [← mem_listedCodes_jumpTable m w] at hj
    simp [hop, hr, hj]

end distinct

end Sys2Proof
end

section
/-!
PROOFS. The statements of 30_encoding.md: which word stands for which instruction, which words are illegal, and where
the jumps and the assembler's offsets and targets lead.
-/

namespace Sys2Proof

/-! ### The round trip and the ignored fields (R108) -/

/-- A shift amount is the number in the field exactly when it fits the field and its encoding is the field (R102). -/
theorem eq_toNat_iff_lt_and_ofNat_eq {n : Nat} (k : Nat) (x : BitVec n) :
    k = x.toNat ↔ k < 2 ^ n ∧ BitVec.ofNat n k = x := by
  constructor
  · rintro rfl
    exact ⟨x.isLt, by simp⟩
  · rintro ⟨hk, rfl⟩
    exact (Nat.mod_eq_of_lt hk).symm

/-- The encoder writes 0 in every ignored field (R116). -/
theorem encodeWith_and_usedBits (m : OpcodeMap) (i : Instr) : encodeWith m i &&& i.usedBits = encodeWith m i := by
  cases i with
  | sll | srl | jr | mfhi | mflo | mul | div | add | sub | and | or | xor | nor =>
    simp [encodeWith, Instr.usedBits, eq_wordR_iff]
  | blez | bgtz => simp [encodeWith, Instr.usedBits, eq_wordI_iff]
  | _ => exact and_ones_word _

/-- Under an assignment without a clash, the words of an instruction are those that agree with its encoding on every bit
it does not ignore. -/
theorem decodeWith_eq_ok_iff_usedBits {m : OpcodeMap} (hm : m.Distinct) (w : Word) (i : Instr) :
    decodeWith m w = .ok i ↔ i.wellFormed = true ∧ w &&& i.usedBits = encodeWith m i := by
  rw [decodeWith_eq_ok_iff hm]
  simp only [Listed, syscallTable, registerTable, jumpTable, regimmTable, immediateTable]
  cases i with
  | sll | srl =>
    simp [Instr.wellFormed, shamtFits, Instr.usedBits, encodeWith, eq_wordR_iff, eq_toNat_iff_lt_and_ofNat_eq]
    tauto
  | jr | mfhi | mflo | mul | div => simp [Instr.wellFormed, Instr.usedBits, encodeWith, eq_wordR_iff]
  | add | sub | and | or | xor | nor =>
    simp [Instr.wellFormed, Instr.usedBits, encodeWith, eq_wordR_iff]
    tauto
  | beq | bne | blez | bgtz => simp [Instr.wellFormed, Instr.usedBits, encodeWith, eq_wordI_iff]
  | bltz | bgez | addi | andi | ori | xori | lw | lbu | sb | sw =>
    simp [Instr.wellFormed, Instr.usedBits, encodeWith, eq_wordI_iff]
    tauto
  | jmp | jal => simp [Instr.wellFormed, Instr.usedBits, encodeWith, eq_wordJ_iff]
  | pstr | exit | pch | rch | stra | notr =>
    simp [Instr.wellFormed, Instr.usedBits, encodeWith, eq_wordS_iff]

theorem opcodeMap_distinct : opcodeMap.Distinct := by decide

/-- Settles O1: the encoding agrees with itself on every bit, ignored or not. -/
theorem decodeOfEncode : Obligations.DecodeOfEncode :=
  ⟨opcodeMap_distinct, fun m hm i hi =>
    (decodeWith_eq_ok_iff_usedBits hm _ i).mpr ⟨hi, encodeWith_and_usedBits m i⟩⟩

/-- Settles O2, for the default assignment. -/
theorem decodeIgnoresExactlyUnusedFields : Obligations.DecodeIgnoresExactlyUnusedFields :=
  decodeWith_eq_ok_iff_usedBits opcodeMap_distinct

/-! ### The decoder's tables and the opcode table (R103 to R107) -/

/-- The row of a function code: its mask keeps opcode and function code. -/
def rowOfFunct (e : BitVec 6 × Instr) : TableRow :=
  ⟨e.2.mnemonic, 0xFC00003F, wordR opcodeMap e.1 0 0 0 0⟩

/-- The row of a primary opcode: its mask keeps the opcode. -/
def rowOfOpcode (e : BitVec 6 × Instr) : TableRow := ⟨e.2.mnemonic, 0xFC000000, wordI e.1 0 0 0⟩

/-- The row of an opcode-1 sub-code: its mask keeps opcode and rt. -/
def rowOfSubcode (e : BitVec 5 × Instr) : TableRow := ⟨e.2.mnemonic, 0xFC1F0000, wordI opcodeMap.regimm 0 e.1 0⟩

/-- The row of a syscall code: its mask keeps every bit. -/
def rowOfCode (e : BitVec 20 × Instr) : TableRow := ⟨e.2.mnemonic, 0xFFFFFFFF, wordS opcodeMap e.1⟩

/-- The rows that say what the decoder's tables for a word say. -/
def decoderRows (w : Word) : List TableRow :=
  (registerTable opcodeMap w).map rowOfFunct ++ (immediateTable opcodeMap w ++ jumpTable opcodeMap w).map rowOfOpcode ++
    (regimmTable opcodeMap w).map rowOfSubcode ++ (syscallTable opcodeMap).map rowOfCode

/-- The tables of the decoder list what the opcode table lists, whatever the word's operands are. -/
theorem opcodeTable_perm_decoderRows (w : Word) : opcodeTable.Perm (decoderRows w) := by
  have h : decoderRows w = decoderRows 0 := rfl
  rw [h]
  decide

theorem opcodeTable_mnemonics_nodup : (opcodeTable.map TableRow.mnemonic).Nodup := by decide

section rows

variable (w : Word) (i : Instr)

theorem matchesWord_rowOfFunct (f : BitVec 6) :
    (rowOfFunct (f, i)).matchesWord w = true ↔ fieldOp w = opcodeMap.special ∧ fieldFunct w = f := by
  simp [rowOfFunct, TableRow.matchesWord, eq_wordR_iff]

theorem matchesWord_rowOfOpcode (op : BitVec 6) : (rowOfOpcode (op, i)).matchesWord w = true ↔ fieldOp w = op := by
  simp [rowOfOpcode, TableRow.matchesWord, eq_wordI_iff]

theorem matchesWord_rowOfSubcode (c : BitVec 5) :
    (rowOfSubcode (c, i)).matchesWord w = true ↔ fieldOp w = opcodeMap.regimm ∧ fieldRt w = c := by
  simp [rowOfSubcode, TableRow.matchesWord, eq_wordI_iff, eq_comm (a := c)]

theorem matchesWord_rowOfCode (c : BitVec 20) :
    (rowOfCode (c, i)).matchesWord w = true ↔
      fieldOp w = opcodeMap.special ∧ fieldFunct w = opcodeMap.syscall ∧ fieldCode w = c := by
  simp [rowOfCode, TableRow.matchesWord, eq_wordS_iff]

end rows

/-- A word matches a row of the opcode table exactly when it decodes to an instruction of the row's mnemonic. -/
theorem exists_row_iff_decode (w : Word) (name : String) :
    (∃ row ∈ opcodeTable, row.mnemonic = name ∧ row.matchesWord w = true) ↔
      ∃ i, decode w = .ok i ∧ i.mnemonic = name := by
  simp only [(opcodeTable_perm_decoderRows w).mem_iff, decoderRows, List.mem_append, List.mem_map, decode,
    decodeWith_eq_ok_iff opcodeMap_distinct, Listed]
  constructor
  · rintro ⟨_, ((⟨⟨c, i⟩, hi, rfl⟩ | ⟨⟨c, i⟩, hi, rfl⟩) | ⟨⟨c, i⟩, hi, rfl⟩) | ⟨⟨c, i⟩, hi, rfl⟩, hname, hw⟩
    · obtain ⟨hop, rfl⟩ := (matchesWord_rowOfFunct w i c).mp hw
      exact ⟨i, .inr (.inl ⟨hop, hi⟩), hname⟩
    · obtain rfl := (matchesWord_rowOfOpcode w i c).mp hw
      exact ⟨i, by tauto, hname⟩
    · obtain ⟨hop, rfl⟩ := (matchesWord_rowOfSubcode w i c).mp hw
      exact ⟨i, .inr (.inr (.inr (.inl ⟨hop, hi⟩))), hname⟩
    · obtain ⟨hop, hf, rfl⟩ := (matchesWord_rowOfCode w i c).mp hw
      exact ⟨i, .inl ⟨hop, hf, hi⟩, hname⟩
  · rintro ⟨i, ⟨hop, hf, hi⟩ | ⟨hop, hi⟩ | hi | ⟨hop, hi⟩ | hi, rfl⟩
    · exact ⟨_, .inr ⟨_, hi, rfl⟩, rfl, (matchesWord_rowOfCode w i _).mpr ⟨hop, hf, rfl⟩⟩
    · exact ⟨_, .inl (.inl (.inl ⟨_, hi, rfl⟩)), rfl, (matchesWord_rowOfFunct w i _).mpr ⟨hop, rfl⟩⟩
    · exact ⟨_, .inl (.inl (.inr ⟨_, .inr hi, rfl⟩)), rfl, (matchesWord_rowOfOpcode w i _).mpr rfl⟩
    · exact ⟨_, .inl (.inr ⟨_, hi, rfl⟩), rfl, (matchesWord_rowOfSubcode w i _).mpr ⟨hop, rfl⟩⟩
    · exact ⟨_, .inl (.inl (.inr ⟨_, .inl hi, rfl⟩)), rfl, (matchesWord_rowOfOpcode w i _).mpr rfl⟩

/-- Settles O3, from `exists_row_iff_decode`: a word has one answer, and a mnemonic one row. -/
theorem decodeAgreesWithOpcodeTable : Obligations.DecodeAgreesWithOpcodeTable := by
  intro w
  have decodes {row} (hrow : row ∈ opcodeTable) (hw : row.matchesWord w = true) :
      ∃ i, decode w = .ok i ∧ i.mnemonic = row.mnemonic :=
    (exists_row_iff_decode w row.mnemonic).mp ⟨row, hrow, rfl, hw⟩
  refine ⟨fun i hi => (exists_row_iff_decode w i.mnemonic).mpr ⟨i, hi, rfl⟩, ?_, ?_, ?_⟩
  · intro row hrow row' hrow' hw hw'
    obtain ⟨i, hi, hname⟩ := decodes hrow hw
    obtain ⟨i', hi', hname'⟩ := decodes hrow' hw'
    rw [hi] at hi'
    cases hi'
    exact List.inj_on_of_nodup_map opcodeTable_mnemonics_nodup hrow hrow' (hname.symm.trans hname')
  · rintro ⟨k, hk⟩ row hrow
    by_contra hw
    obtain ⟨i, hi, -⟩ := decodes hrow (Bool.eq_true_of_not_eq_false hw)
    rw [hk] at hi
    cases hi
  · intro hnone
    cases hd : decode w with
    | error k => exact ⟨k, rfl⟩
    | ok i =>
      obtain ⟨row, hrow, -, hw⟩ := (exists_row_iff_decode w i.mnemonic).mpr ⟨i, hd, rfl⟩
      rw [hnone row hrow] at hw
      cases hw

/-! ### Illegal words (R107) -/

/-- Two codes are the same when they are the same number. -/
theorem toNat_mem_map_iff {n : Nat} (x : BitVec n) (l : List (BitVec n)) : x.toNat ∈ l.map BitVec.toNat ↔ x ∈ l :=
  List.mem_map_of_injective BitVec.toNat_injective

/-- Settles O4, from `decodeWith_eq_error_iff`: the codes of the default assignment, written out as numbers. -/
theorem illegalWordsByKind : Obligations.IllegalWordsByKind := by
  intro w
  simp only [decode, decodeWith_eq_error_iff opcodeMap_distinct, reduceCtorEq, false_and, true_and, false_or, or_false,
    ← toNat_mem_map_iff]
  exact ⟨Iff.rfl, Iff.rfl⟩

/-! ### Encoding examples (R116) -/

/-- Settles O5, by running the decoder. -/
theorem encodingExamples : Obligations.EncodingExamples := by
  unfold Obligations.EncodingExamples
  decide

namespace Machine

/-! ### The word 0 (R109) -/

theorem exec_sll (rd rt : RegIndex) (shamt : Nat) (s : State) :
    exec (.sll rd rt shamt) s = .next (s.setReg rd (s.reg rt <<< shamt)).advance := rfl

/-- Settles O51: sll by 0 writes x[0] back. -/
theorem zeroWordIsANoOp : Obligations.ZeroWordIsANoOp := by
  refine ⟨by decide, fun s => ?_⟩
  rw [exec_sll, BitVec.shiftLeft_zero, State.setReg_self]
  rfl

/-! ### Jump targets (R101) -/

/-- Below 2^28 the region is 0, and the target is the field times 4. -/
theorem toNat_jumpTarget_of_lt {pc : Word} (h : pc.toNat < 2 ^ 28) (target : BitVec 26) :
    (jumpTarget pc target).toNat = 4 * target.toNat := by
  have hregion : pc.extractLsb' 28 4 = 0#4 := by
    apply BitVec.eq_of_toNat_eq
    rw [BitVec.extractLsb'_toNat, Nat.shiftRight_eq_div_pow, Nat.div_eq_of_lt h]
    rfl
  rw [jumpTarget, hregion, BitVec.toNat_append, BitVec.toNat_append]
  simp [Nat.shiftLeft_eq, mul_comm]

/-- A PC that can be fetched is aligned and inside memory (R68). -/
theorem fetchWord_eq_ok {m : Memory} {a w : Word} (h : fetchWord m a = .ok w) :
    a.toNat % 4 = 0 ∧ a.toNat + 4 ≤ memBytes ∧ w = m.wordAt a.toNat := by
  obtain ⟨h4, hin, e⟩ | ⟨_, _, e⟩ | ⟨_, e⟩ := fetchWord_cases m a <;> rw [e] at h <;> cases h
  exact ⟨h4, hin, rfl⟩

/-- Settles O31: memory ends inside the first region, the word after the jump with it. -/
theorem jumpTargetOfAFetchableJump : Obligations.JumpTargetOfAFetchableJump := by
  refine fun m pc w target => ⟨rfl, fun hf => ?_⟩
  obtain ⟨-, hin, -⟩ := fetchWord_eq_ok hf
  have hnext : (pc + 4).toNat = pc.toNat + 4 := toNat_add_of_wordInside hin le_rfl
  have hbytes : memBytes < 2 ^ 28 := by decide
  have hpc := toNat_jumpTarget_of_lt (show pc.toNat < 2 ^ 28 by omega) target
  refine ⟨hpc, BitVec.eq_of_toNat_eq ?_⟩
  rw [hpc, toNat_jumpTarget_of_lt (by omega)]

/-! ### Labels (R115) -/

/-- The branch offset is the signed number of words, times 4 (R100). -/
theorem branchOffset_eq_ofInt (imm : BitVec 16) : branchOffset imm = BitVec.ofInt 32 (4 * imm.toInt) := by
  have hsext : sext16 imm = BitVec.ofInt 32 imm.toInt := rfl
  have hfour : BitVec.twoPow 32 2 = BitVec.ofInt 32 4 := rfl
  rw [branchOffset, hsext, BitVec.shiftLeft_eq_mul_twoPow, hfour, ← BitVec.ofInt_mul, mul_comm]

/-- The field of a number is the one that reads as that number. -/
theorem signedField_eq_some_iff (n : Int) (imm : BitVec 16) : signedField n = some imm ↔ n = imm.toInt := by
  have hlo := BitVec.le_toInt imm
  have hhi := BitVec.toInt_lt (x := imm)
  unfold signedField
  split_ifs with h
  · rw [Option.some.injEq]
    constructor
    · rintro rfl
      rw [BitVec.toInt_ofInt_eq_self (by decide) (by omega) (by omega)]
    · rintro rfl
      exact BitVec.ofInt_toInt
  · refine iff_of_false (by simp) ?_
    omega

theorem labelOffset_eq_some_iff (a l : Word) (imm : BitVec 16) :
    labelOffset a l = some imm ↔ (l - (a + 4)).toInt = 4 * imm.toInt := by
  unfold labelOffset
  dsimp only
  split_ifs with h
  · rw [signedField_eq_some_iff]
    omega
  · refine iff_of_false (by simp) ?_
    omega

theorem branchTarget_of_labelOffset {a l : Word} {imm : BitVec 16} (h : labelOffset a l = some imm) :
    branchTarget a imm = l := by
  rw [labelOffset_eq_some_iff] at h
  rw [branchTarget, branchOffset_eq_ofInt, ← h, BitVec.ofInt_toInt, add_sub_cancel]

theorem toNat_labelTarget {l : Word} (h : l.toNat < 2 ^ 28) : (labelTarget l).toNat = l.toNat / 4 := by
  rw [labelTarget, BitVec.toNat_setWidth, BitVec.toNat_ushiftRight, Nat.shiftRight_eq_div_pow]
  omega

/-- Settles O32: the offset is the distance in words, the field the label's word number. -/
theorem labelsAreReached : Obligations.LabelsAreReached := by
  refine ⟨fun a l imm => ⟨labelOffset_eq_some_iff a l imm, branchTarget_of_labelOffset⟩, fun a l ha hl h4 => ?_⟩
  refine ⟨toNat_labelTarget hl, BitVec.eq_of_toNat_eq ?_⟩
  rw [toNat_jumpTarget_of_lt ha, toNat_labelTarget hl]
  omega

end Machine

end Sys2Proof
end

section
/-!
PROOFS. The statements of 40_fetch_execute.md: when a step exists, what it runs, how it faults at decode, which trace
event it emits, and the exit status of a run.
-/

namespace Sys2Proof.Machine

/-! ### A fetched word (R123, R124, R128) -/

section fetched

variable {s : State} {w : Word} (hr : s.status = .running) (hb : s.blocked = false) (hf : fetchWord s.mem s.pc = .ok w)
include hr hb hf

theorem step_of_decode_ok {i : Instr} (hd : decode w = .ok i) : step s = exec i (traceStep w s) := by
  rw [step_running hr hb, hf]
  simp only [hd]

theorem step_of_decode_error {k : IllegalKind} (hd : decode w = .error k) :
    step s = .next (raise (illegalCause k) (traceStep w s)) := by
  rw [step_running hr hb, hf]
  simp only [hd]

end fetched

/-- Settles O6. -/
theorem stepRunsTheDecodedInstruction : Obligations.StepRunsTheDecodedInstruction :=
  fun _ _ _ hr hb hf hd => step_of_decode_ok hr hb hf hd

/-- Settles O9: the record is made of the traced state, whose PC and fetched word are those before the trace event. -/
theorem illegalWordFaultsAtDecode : Obligations.IllegalWordFaultsAtDecode := by
  intro s w k hr hb hf hd
  refine ⟨_, step_of_decode_error hr hb hf hd, ?_⟩
  have hword : fetchedWord (traceStep w s) = some w := by rw [traceStep_fetchedWord, fetchedWord, hf]
  have hspec := raise_spec (illegalCause k) (traceStep w s)
  rwa [TookFault, hword, traceStep_pc] at hspec

/-! ### The trace event (R122) -/

theorem traceStep_events (w : Word) (s : State) :
    (traceStep w s).events = if s.trace then .trace (s.snapshot w) :: s.events else s.events := by
  rw [traceStep_eq]

theorem raise_events (c : FaultCause) (s : State) :
    ∃ later, traceHistory later = [] ∧ (raise c s).events = later ++ s.events :=
  ⟨[.ended _], rfl, rfl⟩

/-- An instruction emits no trace event of its own: it adds one I/O interaction, the end of the run, or nothing. -/
theorem ExecCase.events_eq_append {i : Instr} {s t : State} (h : ExecCase i s t) :
    ∃ later, traceHistory later = [] ∧ t.events = later ++ s.events := by
  cases h with
  | didIo e _ _ => exact ⟨[.io e], rfl, rfl⟩
  | halted _ => exact ⟨[.ended .halted], rfl, rfl⟩
  | faulted c _ => exact raise_events c s
  | _ => exact ⟨[], rfl, rfl⟩

/-- After a successful fetch, a step emits no trace event but that of `traceStep`, whatever the word is. -/
theorem step_events_of_fetch_ok {s t : State} {w : Word} (hr : s.status = .running) (hb : s.blocked = false)
    (hf : fetchWord s.mem s.pc = .ok w) (hstep : step s = .next t) :
    ∃ later, traceHistory later = [] ∧ t.events = later ++ (traceStep w s).events := by
  cases hd : decode w with
  | error k =>
    rw [step_of_decode_error hr hb hf hd] at hstep
    cases hstep
    exact raise_events _ _
  | ok i =>
    rw [step_of_decode_ok hr hb hf hd] at hstep
    exact (execCase_of_next hstep).events_eq_append

/-- Settles O10: a fetch that faults leaves only the end of the run to report; after one that succeeds, the trace event
comes first. -/
theorem traceEventOfAStep : Obligations.TraceEventOfAStep := by
  intro s t hr hb hstep
  cases hf : fetchWord s.mem s.pc with
  | error c =>
    rw [step_running hr hb, hf] at hstep
    cases hstep
    cases s.trace <;> exact raise_events c s
  | ok w =>
    obtain ⟨later, hnone, he⟩ := step_events_of_fetch_ok hr hb hf hstep
    refine ⟨later, hnone, he.trans ?_⟩
    rw [traceStep_events]
    cases s.trace <;> rfl

/-! ### When a step exists (R120) -/

theorem noStep_eq_none_iff (st : RunStatus) : noStep st = none ↔ st = .running := by
  cases st <;> simp [noStep]

theorem noStep_eq_runEnded_iff (st : RunStatus) : noStep st = some .runEnded ↔ st.terminal = true := by
  cases st <;> simp [noStep, RunStatus.terminal]

theorem noStep_eq_notStarted_iff (st : RunStatus) :
    noStep st = some .notStarted ↔ st = .loading ∨ st = .validating := by
  cases st <;> simp [noStep]

/-- A running machine has a next state: a fault at fetch or decode is one, and every instruction has one (R253). -/
theorem exists_next_of_running {s : State} (hr : s.status = .running) : ∃ t, step s = .next t := by
  cases hb : s.blocked with
  | true => exact ⟨s, step_blocked hr hb⟩
  | false =>
    cases hf : fetchWord s.mem s.pc with
    | error c =>
      obtain ⟨t, ht, _⟩ := step_of_fetch_error hr hb hf
      exact ⟨t, ht⟩
    | ok w =>
      cases hd : decode w with
      | error k => exact ⟨_, step_of_decode_error hr hb hf hd⟩
      | ok i =>
        obtain ⟨t, ht, _⟩ := exec_cases i (traceStep w s)
        exact ⟨t, (step_of_decode_ok hr hb hf hd).trans ht⟩

theorem exists_next_iff (s : State) : (∃ t, step s = .next t) ↔ s.status = .running :=
  ⟨fun ⟨_, ht⟩ => (step_cases ht).1, exists_next_of_running⟩

/-- The faults of the model's own are those of a status without a step (log entry 10). -/
theorem step_eq_fault_iff (s : State) (f : Fault) : step s = .fault f ↔ noStep s.status = some f := by
  cases hn : noStep s.status with
  | none =>
    obtain ⟨t, ht⟩ := exists_next_of_running ((noStep_eq_none_iff _).mp hn)
    simp [ht]
  | some g => simp [step, hn]

/-- Settles O11, from what `noStep` says of each status. -/
theorem stepExistsExactlyWhenRunning : Obligations.StepExistsExactlyWhenRunning := fun s =>
  ⟨(exists_next_iff s).symm,
    (noStep_eq_runEnded_iff s.status).symm.trans (step_eq_fault_iff s .runEnded).symm,
    (noStep_eq_notStarted_iff s.status).symm.trans (step_eq_fault_iff s .notStarted).symm⟩

/-! ### The exit status (R134, R257) -/

theorem exitStatus_eq_zero_iff (st : RunStatus) : exitStatus st = some 0 ↔ st = .halted := by
  cases st <;> simp [exitStatus]

theorem exists_exitStatus_iff (st : RunStatus) : (∃ n, exitStatus st = some n) ↔ st.terminal = true := by
  cases st <;> simp [exitStatus, RunStatus.terminal]

/-- Settles O58, status by status. -/
theorem exitStatusOfARun : Obligations.ExitStatusOfARun := fun st =>
  ⟨exitStatus_eq_zero_iff st, exists_exitStatus_iff st⟩

end Sys2Proof.Machine
end

section
/-!
PROOFS. The statements of 41_register_alu.md: the encoding, the result and the frame of the register-format ALU
instructions.
-/

namespace Sys2Proof.Machine

/-! ### The decoder on a RegisterOp word (R92, R104) -/

section registerWords

variable (rs rt rd shamt : BitVec 5) (funct : BitVec 6)

theorem layoutR_eq_wordR : layoutR rs rt rd shamt funct = wordR opcodeMap funct rs rt rd shamt := rfl

@[simp] theorem registerTable_layoutR :
    registerTable opcodeMap (layoutR rs rt rd shamt funct) =
      [(0, .sll rd rt shamt.toNat), (2, .srl rd rt shamt.toNat), (8, .jr rs), (16, .mfhi rd), (18, .mflo rd),
       (24, .mul rs rt), (26, .div rs rt), (33, .add rd rs rt), (35, .sub rd rs rt), (36, .and rd rs rt),
       (37, .or rd rs rt), (38, .xor rd rs rt), (39, .nor rd rs rt)] := by
  simp [registerTable, layoutR_eq_wordR, opcodeMap]

variable {rs rt rd shamt funct}

/-- A RegisterOp word decodes to what the register table lists for its function code. -/
theorem decode_layoutR {i : Instr} (hi : (funct, i) ∈ registerTable opcodeMap (layoutR rs rt rd shamt funct)) :
    decode (layoutR rs rt rd shamt funct) = .ok i := by
  refine (decodeWith_eq_ok_iff opcodeMap_distinct _ i).mpr (.inr (.inl ⟨?_, ?_⟩))
  · rw [layoutR_eq_wordR, fieldOp_wordR]
  · rwa [layoutR_eq_wordR, fieldFunct_wordR]

end registerWords

/-! ### Writing one register -/

/-- `writeAndNext_spec`, with what the value written is known for. -/
theorem writeAndNext_spec_of {P : Word → Prop} (d : RegIndex) {v : Word} (s : State) (hv : P v) :
    ∃ t w, writeAndNext d v s = .next t ∧ WroteRegister d w s t ∧ P w := by
  obtain ⟨t, ht, hw⟩ := writeAndNext_spec d v s
  exact ⟨t, v, ht, hw, hv⟩

/-! ### add and sub (R141, R142) -/

theorem exec_add_spec (rd rs rt : RegIndex) (s : State) :
    ∃ t, exec (.add rd rs rt) s = .next t ∧ WroteRegister rd (s.reg rs + s.reg rt) s t :=
  writeAndNext_spec rd (s.reg rs + s.reg rt) s

theorem exec_sub_spec (rd rs rt : RegIndex) (s : State) :
    ∃ t, exec (.sub rd rs rt) s = .next t ∧ WroteRegister rd (s.reg rs - s.reg rt) s t :=
  writeAndNext_spec rd (s.reg rs - s.reg rt) s

theorem ofInt_toInt_add_toInt (a b : Word) : BitVec.ofInt 32 (a.toInt + b.toInt) = a + b :=
  BitVec.eq_of_toInt_eq (by rw [BitVec.toInt_ofInt, BitVec.toInt_add])

theorem ofInt_toInt_sub_toInt (a b : Word) : BitVec.ofInt 32 (a.toInt - b.toInt) = a - b :=
  BitVec.eq_of_toInt_eq (by rw [BitVec.toInt_ofInt, BitVec.toInt_sub])

/-- Settles O17: addition and subtraction of words are those of the signed readings modulo 2^32. -/
theorem addSubWrapAround : Obligations.AddSubWrapAround := by
  intro rs rt rd shamt s
  rw [ofInt_toInt_add_toInt, ofInt_toInt_sub_toInt]
  exact ⟨decode_layoutR (by simp), decode_layoutR (by simp),
    exec_add_spec rd rs rt s, exec_sub_spec rd rs rt s⟩

/-- Settles O18: the add leaves rt as it was, so the sub takes off what the add put on. -/
theorem addThenSubRestores : Obligations.AddThenSubRestores := by
  intro rd rs rt s _ hrt
  obtain ⟨t, ht, hadd⟩ := exec_add_spec rd rs rt s
  obtain ⟨u, hu, hsub⟩ := exec_sub_spec rd rd rt t
  refine ⟨t, u, ht, hu, ?_⟩
  rw [hsub.value, hadd.value, hadd.others rt hrt.symm, BitVec.add_sub_cancel]

/-! ### The bitwise instructions (R147, R148, R149, R152) -/

/-- Settles O19, by the bits of each bitwise operation. -/
theorem bitwiseLogicIsBitByBit : Obligations.BitwiseLogicIsBitByBit := by
  intro rs rt rd shamt s
  refine ⟨decode_layoutR (by simp), decode_layoutR (by simp), decode_layoutR (by simp), decode_layoutR (by simp),
    ?_, ?_, ?_, ?_⟩
  · exact writeAndNext_spec_of rd s fun k _ => BitVec.getLsbD_and
  · exact writeAndNext_spec_of rd s fun k _ => BitVec.getLsbD_or
  · exact writeAndNext_spec_of rd s fun k _ => BitVec.getLsbD_xor
  · refine writeAndNext_spec_of rd s fun k hk => ?_
    rw [BitVec.getLsbD_not, BitVec.getLsbD_or, decide_eq_true hk, Bool.true_and]

/-! ### The logical shifts (R150, R151) -/

/-- Settles O20: a shift by k is multiplication or division by 2^k. -/
theorem shiftsAreLogical : Obligations.ShiftsAreLogical := by
  intro rs rt rd shamt s
  refine ⟨decode_layoutR (by simp), decode_layoutR (by simp), ?_, ?_⟩
  · refine writeAndNext_spec_of rd s ?_
    rw [BitVec.toNat_shiftLeft, Nat.shiftLeft_eq]
  · refine writeAndNext_spec_of rd s ?_
    rw [BitVec.toNat_ushiftRight, Nat.shiftRight_eq_div_pow]

/-! ### mfhi and mflo (R145, R146) -/

/-- Settles O21: each writes one register, with HI or LO. -/
theorem moveFromHiLoCopies : Obligations.MoveFromHiLoCopies := fun _ _ rd _ s =>
  ⟨decode_layoutR (by simp), decode_layoutR (by simp),
    writeAndNext_spec rd s.hi s, writeAndNext_spec rd s.lo s⟩

/-! ### mul (R143) -/

/-- The product of two signed words fits 64 bits. -/
theorem toInt_signedProduct (a b : Word) : (signedProduct a b).toInt = a.toInt * b.toInt := by
  have hlo : -2 ^ 62 ≤ a.toInt * b.toInt := BitVec.le_toInt_mul_toInt
  have hhi : a.toInt * b.toInt ≤ 2 ^ 62 := BitVec.toInt_mul_toInt_le
  exact BitVec.toInt_ofInt_eq_self (by decide) (by omega) (by omega)

/-- A 64-bit value is its two halves side by side. -/
theorem append_halves (p : BitVec 64) : (p.extractLsb' 32 32 ++ p.extractLsb' 0 32 : BitVec 64) = p :=
  (BitVec.extractLsb'_append_extractLsb'_eq_extractLsb' (start₁ := 0) (len₁ := 32) rfl).trans
    BitVec.extractLsb'_eq_self

/-- Settles O22: HI and LO are the halves of a product that fits. -/
theorem mulIsTheExactSignedProduct : Obligations.MulIsTheExactSignedProduct := by
  intro rs rt rd shamt s
  refine ⟨decode_layoutR (by simp), _, _, _, rfl, setHiLo_advance_spec _ _ s, ?_⟩
  rw [append_halves, toInt_signedProduct]

/-! ### div (R144) -/

theorem signedDivide_zero (a : Word) : signedDivide a 0 = .error .divideByZero := if_pos rfl

theorem signedDivide_overflow : signedDivide 0x80000000 0xFFFFFFFF = .error .divideOverflow := rfl

/-- In every other case, quotient and remainder fit a word, and are those of truncating division. -/
theorem exists_signedDivide_eq_ok {a b : Word} (hb : b ≠ 0) (ho : ¬ (a = 0x80000000 ∧ b = 0xFFFFFFFF)) :
    ∃ q r, signedDivide a b = .ok (q, r) ∧ q.toInt = a.toInt.tdiv b.toInt ∧ r.toInt = a.toInt.tmod b.toInt := by
  have hq : (a.sdiv b).toInt = a.toInt.tdiv b.toInt := BitVec.toInt_sdiv_of_ne_or_ne a b (not_and_or.mp ho)
  have hr : (a.srem b).toInt = a.toInt.tmod b.toInt := BitVec.toInt_srem a b
  refine ⟨a.sdiv b, a.srem b, ?_, hq, hr⟩
  obtain ⟨hzero, -⟩ | ⟨hmin, hneg, -⟩ | ⟨-, -, h⟩ := signedDivide_cases a b
  · exact absurd hzero hb
  · exact absurd ⟨hmin, hneg⟩ ho
  · rw [h, mul_comm, ← Int.tmod_def, ← hq, ← hr, BitVec.ofInt_toInt, BitVec.ofInt_toInt]

theorem exec_div (rs rt : RegIndex) (s : State) :
    exec (.div rs rt) s =
      .next (commit s ((signedDivide (s.reg rs) (s.reg rt)).map fun qr => s.setHiLo qr.2 qr.1)) := rfl

theorem exec_div_of_error {rs rt : RegIndex} {s : State} {c : FaultCause}
    (h : signedDivide (s.reg rs) (s.reg rt) = .error c) :
    ∃ t, exec (.div rs rt) s = .next t ∧ TookFault c s t :=
  ⟨raise c s, by rw [exec_div, h]; rfl, raise_spec c s⟩

theorem exec_div_of_ok {rs rt : RegIndex} {s : State} {q r : Word}
    (h : signedDivide (s.reg rs) (s.reg rt) = .ok (q, r)) :
    ∃ t, exec (.div rs rt) s = .next t ∧ WroteHiLo r q s t :=
  ⟨(s.setHiLo r q).advance, by rw [exec_div, h]; rfl, setHiLo_advance_spec r q s⟩

theorem natAbs_tmod_lt (a : Int) {b : Int} (hb : b ≠ 0) : (a.tmod b).natAbs < b.natAbs := by
  rw [Int.natAbs_tmod]
  exact Nat.mod_lt _ (Int.natAbs_pos.mpr hb)

theorem tmod_nonpos {a : Int} (b : Int) (ha : a ≤ 0) : a.tmod b ≤ 0 := by
  have h : 0 ≤ (-a).tmod b := Int.tmod_nonneg b (by omega)
  rw [Int.neg_tmod] at h
  omega

/-- Settles O23: what `signedDivide` answers in each case, and the laws of truncating division. -/
theorem divTruncatesOrFaults : Obligations.DivTruncatesOrFaults := by
  intro rs rt rd shamt s
  refine ⟨decode_layoutR (by simp), fun hz => ?_, fun hmin hneg => ?_, fun hz ho => ?_⟩
  · exact exec_div_of_error (by rw [hz, signedDivide_zero])
  · exact exec_div_of_error (by rw [hmin, hneg, signedDivide_overflow])
  · obtain ⟨q, r, hqr, hq, hr⟩ := exists_signedDivide_eq_ok hz ho
    obtain ⟨t, ht, hw⟩ := exec_div_of_ok hqr
    have hdivisor : (s.reg rt).toInt ≠ 0 := fun h => hz (BitVec.toInt_inj.mp h)
    refine ⟨t, r, q, ht, hw, ?_⟩
    rw [hq, hr]
    exact ⟨Int.tdiv_mul_add_tmod _ _, natAbs_tmod_lt _ hdivisor, Int.tmod_nonneg _, fun h => tmod_nonpos _ h.le⟩

end Sys2Proof.Machine
end

section
/-!
PROOFS. The statement of 42_immediate_alu.md: the encoding, the result and the frame of the immediate-format ALU
instructions.
-/

namespace Sys2Proof.Machine

/-! ### The decoder on an ImmediateOp word (R93, R103) -/

section immediateWords

variable (op : BitVec 6) (rs rt : BitVec 5) (imm : BitVec 16)

theorem layoutI_eq_wordI : layoutI op rs rt imm = wordI op rs rt imm := rfl

@[simp] theorem immediateTable_layoutI :
    immediateTable opcodeMap (layoutI op rs rt imm) =
      [(4, .beq rs rt imm), (5, .bne rs rt imm), (6, .blez rs imm), (7, .bgtz rs imm), (9, .addi rt rs imm),
       (12, .andi rt rs imm), (13, .ori rt rs imm), (14, .xori rt rs imm), (35, .lw rt rs imm), (36, .lbu rt rs imm),
       (40, .sb rt rs imm), (43, .sw rt rs imm)] := by
  simp [immediateTable, layoutI_eq_wordI, opcodeMap]

variable {op rs rt imm}

/-- An ImmediateOp word decodes to what the immediate table lists for its opcode. -/
theorem decode_layoutI {i : Instr} (hi : (op, i) ∈ immediateTable opcodeMap (layoutI op rs rt imm)) :
    decode (layoutI op rs rt imm) = .ok i := by
  refine (decodeWith_eq_ok_iff opcodeMap_distinct _ i).mpr (.inr (.inr (.inr (.inr ?_))))
  rwa [layoutI_eq_wordI, fieldOp_wordI]

end immediateWords

/-! ### addi, andi, ori and xori (R170 to R173) -/

/-- The signed readings of a word and of an immediate add up, modulo 2^32, to the word plus the extended immediate. -/
theorem ofInt_toInt_add_imm (a : Word) (imm : BitVec 16) : BitVec.ofInt 32 (a.toInt + imm.toInt) = a + sext16 imm := by
  have hsext : sext16 imm = BitVec.ofInt 32 imm.toInt := rfl
  rw [BitVec.ofInt_add, BitVec.ofInt_toInt, hsext]

/-- Settles O24: each writes one register, with x[rs] combined with the immediate that R170 to R173 extend. -/
theorem immediateAluResults : Obligations.ImmediateAluResults := by
  intro rs rt imm s
  rw [ofInt_toInt_add_imm, ← zext16_eq]
  exact ⟨decode_layoutI (by simp), decode_layoutI (by simp), decode_layoutI (by simp), decode_layoutI (by simp),
    writeAndNext_spec rt (s.reg rs + sext16 imm) s, writeAndNext_spec rt (s.reg rs &&& zext16 imm) s,
    writeAndNext_spec rt (s.reg rs ||| zext16 imm) s, writeAndNext_spec rt (s.reg rs ^^^ zext16 imm) s⟩

end Sys2Proof.Machine
end

section
/-!
PROOFS. The statements of 43_control_transfer.md: the encoding, the target and the frame of the branches and jumps, and
where the branches and calls lead.
-/

namespace Sys2Proof.Machine

/-! ### The decoder on an opcode-1 word and on a JumpOp word (R94, R103, R105) -/

section transferWords

variable (op : BitVec 6) (rs c : BitVec 5) (imm : BitVec 16) (target : BitVec 26)

theorem layoutJ_eq_wordJ : layoutJ op target = wordJ op target := rfl

@[simp] theorem regimmTable_layoutI :
    regimmTable opcodeMap (layoutI op rs c imm) = [(0, .bltz rs imm), (1, .bgez rs imm)] := by
  simp [regimmTable, layoutI_eq_wordI, opcodeMap]

@[simp] theorem jumpTable_layoutJ :
    jumpTable opcodeMap (layoutJ op target) = [(2, .jmp target), (3, .jal target)] := by
  simp [jumpTable, layoutJ_eq_wordJ, opcodeMap]

variable {op rs c imm target}

/-- An opcode-1 word decodes to what the sub-code table lists for its rt field. -/
theorem decode_layoutI_regimm {i : Instr} (hi : (c, i) ∈ regimmTable opcodeMap (layoutI 1 rs c imm)) :
    decode (layoutI 1 rs c imm) = .ok i := by
  refine (decodeWith_eq_ok_iff opcodeMap_distinct _ i).mpr (.inr (.inr (.inr (.inl ⟨?_, ?_⟩))))
  · rw [layoutI_eq_wordI, fieldOp_wordI]
    rfl
  · rwa [layoutI_eq_wordI, fieldRt_wordI]

/-- A JumpOp word decodes to what the jump table lists for its opcode. -/
theorem decode_layoutJ {i : Instr} (hi : (op, i) ∈ jumpTable opcodeMap (layoutJ op target)) :
    decode (layoutJ op target) = .ok i := by
  refine (decodeWith_eq_ok_iff opcodeMap_distinct _ i).mpr (.inr (.inr (.inl ?_)))
  rwa [layoutJ_eq_wordJ, fieldOp_wordJ]

end transferWords

/-! ### jr (R182) -/

theorem exec_jr_spec (rs : RegIndex) (s : State) : ∃ t, exec (.jr rs) s = .next t ∧ MovedTo (s.reg rs) s t :=
  ⟨_, rfl, setPc_spec (s.reg rs) s⟩

/-- Settles O25. -/
theorem jumpRegisterTransfers : Obligations.JumpRegisterTransfers := fun rs _ _ _ s =>
  ⟨decode_layoutR (by simp), exec_jr_spec rs s⟩

/-! ### The conditional branches (R183 to R188) -/

/-- `branchIf_spec` for a comparison that decides P, with the target written out (R181, R100). -/
theorem branchIf_spec_of {P : Prop} [Decidable P] {taken : Bool} (h : taken = true ↔ P) (imm : BitVec 16)
    (s : State) :
    ∃ t, branchIf taken imm s = .next t ∧
      MovedTo (if P then s.pc + 4 + BitVec.ofInt 32 (4 * imm.toInt) else s.pc + 4) s t := by
  simpa only [h, branchTarget, branchOffset_eq_ofInt] using branchIf_spec taken imm s

theorem condEq_iff (a b : Word) : condEq a b = true ↔ a = b := beq_iff_eq

theorem not_condEq_iff (a b : Word) : (!condEq a b) = true ↔ ¬ a = b := by
  rw [Bool.not_eq_true', ← Bool.not_eq_true, condEq_iff]

theorem condGez_iff (a : Word) : condGez a = true ↔ 0 ≤ a.toInt := decide_eq_true_iff

theorem condGtz_iff (a : Word) : condGtz a = true ↔ 0 < a.toInt := decide_eq_true_iff

theorem condLez_iff (a : Word) : condLez a = true ↔ a.toInt ≤ 0 := decide_eq_true_iff

theorem condLtz_iff (a : Word) : condLtz a = true ↔ a.toInt < 0 := decide_eq_true_iff

/-- Settles O26: bne is taken where beq is not. -/
theorem equalityBranches : Obligations.EqualityBranches := by
  intro rs rt imm s
  refine ⟨decode_layoutI (by simp), decode_layoutI (by simp), branchIf_spec_of (condEq_iff _ _) imm s, ?_⟩
  rw [← ite_not]
  exact branchIf_spec_of (not_condEq_iff _ _) imm s

/-- Settles O27, comparison by comparison. -/
theorem signBranches : Obligations.SignBranches := fun _ _ imm s =>
  ⟨decode_layoutI_regimm (by simp), decode_layoutI (by simp), decode_layoutI (by simp),
    decode_layoutI_regimm (by simp), branchIf_spec_of (condGez_iff _) imm s, branchIf_spec_of (condGtz_iff _) imm s,
    branchIf_spec_of (condLez_iff _) imm s, branchIf_spec_of (condLtz_iff _) imm s⟩

/-! ### jmp and jal (R189 to R191) -/

theorem exec_jal (target : BitVec 26) (s : State) :
    exec (.jal target) s = .next ((s.setReg 31 (s.pc + 4)).setPc (jumpTarget s.pc target)) := rfl

/-- Settles O28. -/
theorem absoluteJumps : Obligations.AbsoluteJumps := by
  refine fun target s => ⟨decode_layoutJ (by simp), decode_layoutJ (by simp), ⟨_, rfl, setPc_spec _ s⟩,
    _, exec_jal target s, rfl, ?link, ?others, ⟨rfl, rfl⟩, fun _ => rfl, rfl, rfl, rfl, rfl⟩
  case link => rw [State.setPc_reg, State.reg_setReg_same]
  case others =>
    intro r hr
    rw [State.setPc_reg, State.reg_setReg_other _ _ _ _ hr]

/-- Settles O29: the jal leaves the link in x[31], and the jr goes where x[31] says. -/
theorem callReturnsAfterTheJump : Obligations.CallReturnsAfterTheJump := by
  intro target s t u ht hu
  rw [exec_jal] at ht
  cases ht
  obtain ⟨v, hv, hmoved⟩ := exec_jr_spec 31 u
  refine ⟨v, hv, ?_⟩
  rw [hmoved.pc, hu, State.setPc_reg, State.reg_setReg_same]

/-! ### The branch target (R181) -/

/-- The offset fits a word: it is four times the signed immediate, without wrapping. -/
theorem toInt_branchOffset (imm : BitVec 16) : (branchOffset imm).toInt = 4 * imm.toInt := by
  have hlo := BitVec.le_toInt imm
  have hhi := BitVec.toInt_lt (x := imm)
  rw [branchOffset_eq_ofInt, BitVec.toInt_ofInt_eq_self (by decide) (by omega) (by omega)]

theorem toNat_branchOffset_mod_four (imm : BitVec 16) : (branchOffset imm).toNat % 4 = 0 := by
  rw [branchOffset, BitVec.toNat_shiftLeft, Nat.shiftLeft_eq]
  omega

theorem branchTarget_aligned {pc : Word} (h : pc.toNat % 4 = 0) (imm : BitVec 16) :
    (branchTarget pc imm).toNat % 4 = 0 := by
  have hoff := toNat_branchOffset_mod_four imm
  have hfour : (4 : Word).toNat = 4 := rfl
  rw [branchTarget, BitVec.toNat_add, BitVec.toNat_add, hfour]
  omega

theorem branchTarget_sub_next (pc : Word) (imm : BitVec 16) : branchTarget pc imm - (pc + 4) = branchOffset imm :=
  add_sub_cancel_left _ _

/-- The immediate -1 counts the branch itself, one word before the next instruction. -/
theorem branchTarget_neg_one (pc : Word) : branchTarget pc 0xFFFF = pc := by
  have hback : branchOffset 0xFFFF = -4 := rfl
  rw [branchTarget, hback, add_neg_cancel_right]

theorem branchTarget_zero (pc : Word) : branchTarget pc 0 = pc + 4 := by
  have hnone : branchOffset 0 = 0 := rfl
  rw [branchTarget, hnone, add_zero]

/-- Settles O30: the reach is that of the offset, four times a signed 16-bit number. -/
theorem branchTargetReach : Obligations.BranchTargetReach := by
  intro pc imm
  have hlo := BitVec.le_toInt imm
  have hhi := BitVec.toInt_lt (x := imm)
  rw [branchTarget_sub_next, toInt_branchOffset]
  exact ⟨rfl, fun h => branchTarget_aligned h imm, branchTarget_zero pc, branchTarget_neg_one pc,
    by omega, by omega⟩

end Sys2Proof.Machine
end

section
/-!
PROOFS. The statements of 44_load_store.md: the encoding, the address, the bytes and the frame of the loads and stores,
their faults, and that a load gives back what a store left.
-/

namespace Sys2Proof.Machine

/-! ### When the memory interface answers, continued (R63 to R67) -/

/-- The signed bound of a byte access, read on the unsigned address. -/
theorem byteOutside_of_toInt {a : Word} (h : a.toInt < 0 ∨ 65532 ≤ a.toInt) : memBytes ≤ a.toNat :=
  lt_toNat_of_toInt_outside (n := 65531) (by decide) h

/-- The signed bound of a word access, read on the unsigned address. -/
theorem wordOutside_of_toInt {a : Word} (h : a.toInt < 0 ∨ 65528 < a.toInt) : memBytes < a.toNat + 4 :=
  Nat.add_lt_add_right (lt_toNat_of_toInt_outside (n := 65528) (by decide) h) 4

theorem wordInside_of_le {a : Nat} (h : a ≤ 65528) : a + 4 ≤ memBytes := Nat.add_le_add_right h 4

theorem readByte_of_outside {a : Word} (m : Memory) (ha : memBytes ≤ a.toNat) :
    readByte m a = .error (.accessOutOfRange a) := by
  obtain ⟨hin, _⟩ | ⟨_, e⟩ := readByte_cases m a
  · omega
  · exact e

theorem writeByte_of_inside {a : Word} (m : Memory) (b : Byte) (ha : a.toNat < memBytes) :
    writeByte m a b = .ok (m.write a.toNat b) := by
  obtain ⟨_, e⟩ | ⟨hout, _⟩ := writeByte_cases m a b
  · exact e
  · omega

theorem writeByte_of_outside {a : Word} (m : Memory) (b : Byte) (ha : memBytes ≤ a.toNat) :
    writeByte m a b = .error (.accessOutOfRange a) := by
  obtain ⟨hin, _⟩ | ⟨_, e⟩ := writeByte_cases m a b
  · omega
  · exact e

theorem readWord_of_outside {a : Word} (m : Memory) (h4 : a.toNat % 4 = 0) (ha : memBytes < a.toNat + 4) :
    readWord m a = .error (.accessOutOfRange a) := by
  obtain ⟨_, hin, _⟩ | ⟨_, _, e⟩ | ⟨hmis, _⟩ := readWord_cases m a
  · omega
  · exact e
  · exact absurd h4 hmis

theorem readWord_of_misaligned {a : Word} (m : Memory) (h4 : a.toNat % 4 ≠ 0) :
    readWord m a = .error (.misalignedAccess a) := by
  obtain ⟨h, _⟩ | ⟨h, _⟩ | ⟨_, e⟩ := readWord_cases m a
  · exact absurd h h4
  · exact absurd h h4
  · exact e

theorem writeWord_of_outside {a : Word} (m : Memory) (v : Word) (h4 : a.toNat % 4 = 0) (ha : memBytes < a.toNat + 4) :
    writeWord m a v = .error (.accessOutOfRange a) := by
  obtain ⟨_, hin, _⟩ | ⟨_, _, e⟩ | ⟨hmis, _⟩ := writeWord_cases m a v
  · omega
  · exact e
  · exact absurd h4 hmis

theorem writeWord_of_misaligned {a : Word} (m : Memory) (v : Word) (h4 : a.toNat % 4 ≠ 0) :
    writeWord m a v = .error (.misalignedAccess a) := by
  obtain ⟨h, _⟩ | ⟨h, _⟩ | ⟨_, e⟩ := writeWord_cases m a v
  · exact absurd h h4
  · exact absurd h h4
  · exact e

/-! ### How a load and a store end -/

theorem loadResult_of_ok {r : Except FaultCause Word} {v : Word} (h : r = .ok v) (rt : RegIndex) (s : State) :
    ∃ t, loadResult rt r s = .next t ∧ WroteRegister rt v s t := by
  rw [h]
  exact writeAndNext_spec rt v s

theorem loadResult_of_error {r : Except FaultCause Word} {c : FaultCause} (h : r = .error c) (rt : RegIndex)
    (s : State) : ∃ t, loadResult rt r s = .next t ∧ TookFault c s t := by
  rw [h]
  exact ⟨raise c s, rfl, raise_spec c s⟩

theorem storeResult_of_ok {r : Except FaultCause Memory} {m : Memory} (h : r = .ok m) (s : State) :
    storeResult r s = .next (s.setMem m).advance := by
  rw [h]
  rfl

theorem storeResult_of_error {r : Except FaultCause Memory} {c : FaultCause} (h : r = .error c) (s : State) :
    ∃ t, storeResult r s = .next t ∧ TookFault c s t := by
  rw [h]
  exact ⟨raise c s, rfl, raise_spec c s⟩

/-- A new memory with the given bytes from address a, and the old one elsewhere, is what a store leaves. -/
theorem setMem_advance_stored {a : Nat} {bytes : List Byte} {m : Memory} {s : State}
    (hin : ∀ k (h : k < bytes.length), m.read (a + k) = bytes[k])
    (hout : ∀ b, b < a ∨ a + bytes.length ≤ b → m.read b = s.mem.read b) :
    Stored a bytes s (s.setMem m).advance where
  stored := hin
  outside := hout
  regs := fun _ => rfl
  hiLo := ⟨rfl, rfl⟩
  pc := rfl
  run := ⟨rfl, rfl, rfl, rfl⟩

/-! ### The accesses, by instruction -/

section accesses

variable (rt rs : RegIndex) (imm : BitVec 16) (s : State)

theorem exec_lbu : exec (.lbu rt rs imm) s =
    loadResult rt ((readByte s.mem (effectiveAddress s rs imm)).map zext8) s := rfl

theorem exec_lw : exec (.lw rt rs imm) s = loadResult rt (readWord s.mem (effectiveAddress s rs imm)) s := rfl

theorem exec_sb : exec (.sb rt rs imm) s =
    storeResult (writeByte s.mem (effectiveAddress s rs imm) (lowByte (s.reg rt))) s := rfl

theorem exec_sw : exec (.sw rt rs imm) s =
    storeResult (writeWord s.mem (effectiveAddress s rs imm) (s.reg rt)) s := rfl

variable {rs imm s}

theorem exec_lbu_of_inside (hin : (effectiveAddress s rs imm).toNat < memBytes) :
    ∃ t, exec (.lbu rt rs imm) s = .next t ∧
      WroteRegister rt (0#24 ++ s.mem.read (effectiveAddress s rs imm).toNat) s t := by
  rw [exec_lbu, readByte_of_inside s.mem hin, ← zext8_eq]
  exact loadResult_of_ok rfl rt s

theorem exec_lw_of_inside (h4 : (effectiveAddress s rs imm).toNat % 4 = 0)
    (hin : (effectiveAddress s rs imm).toNat + 4 ≤ memBytes) :
    ∃ t, exec (.lw rt rs imm) s = .next t ∧
      WroteRegister rt (s.mem.wordAt (effectiveAddress s rs imm).toNat) s t := by
  rw [exec_lw]
  exact loadResult_of_ok (readWord_of_inside s.mem h4 hin) rt s

/-- A sb inside memory, read as one update of the state (R203). -/
theorem exec_sb_of_inside (hin : (effectiveAddress s rs imm).toNat < memBytes) :
    exec (.sb rt rs imm) s =
      .next (s.setMem (s.mem.write (effectiveAddress s rs imm).toNat (lowByte (s.reg rt)))).advance := by
  rw [exec_sb]
  exact storeResult_of_ok (writeByte_of_inside s.mem _ hin) s

end accesses

/-! ### lbu and lw (R201, R202) -/

/-- Settles O33, from what the byte read answers inside and outside memory. -/
theorem loadByteUnsigned : Obligations.LoadByteUnsigned := by
  intro rs rt imm s
  refine ⟨decode_layoutI (by simp), rfl, fun hin => exec_lbu_of_inside rt hin, fun hout => ?_⟩
  rw [exec_lbu, readByte_of_outside s.mem (byteOutside_of_toInt hout)]
  exact loadResult_of_error rfl rt s

/-- In the default byte order the lowest address holds the lowest byte (R60). -/
theorem Memory.wordAt_eq_append (m : Memory) (a : Nat) :
    m.wordAt a = m.read (a + 3) ++ m.read (a + 2) ++ m.read (a + 1) ++ m.read a := rfl

/-- Settles O34, from what the word read answers. -/
theorem loadWordAligned : Obligations.LoadWordAligned := by
  intro rs rt imm s
  rw [exec_lw, ← Memory.wordAt_eq_append]
  refine ⟨decode_layoutI (by simp), rfl, fun h4 hle => ?_, fun hmis => ?_, fun h4 hout => ?_⟩
  · exact loadResult_of_ok (readWord_of_inside s.mem h4 (wordInside_of_le hle)) rt s
  · exact loadResult_of_error (readWord_of_misaligned s.mem hmis) rt s
  · exact loadResult_of_error (readWord_of_outside s.mem h4 (wordOutside_of_toInt hout)) rt s

/-! ### sb and sw (R203, R204) -/

theorem setMem_write_stored (a : Nat) (b : Byte) (s : State) :
    Stored a [b] s (s.setMem (s.mem.write a b)).advance := by
  refine setMem_advance_stored (fun k hk => ?_) (fun c hc => Memory.read_write_other ?_)
  · obtain rfl : k = 0 := Nat.lt_one_iff.mp hk
    exact Memory.read_write_same _ a b
  · rw [List.length_singleton] at hc
    omega

/-- In the default byte order the lowest byte goes to the lowest address (R60). -/
theorem setMem_putWord_stored (a : Nat) (v : Word) (s : State) :
    Stored a [v.extractLsb' 0 8, v.extractLsb' 8 8, v.extractLsb' 16 8, v.extractLsb' 24 8] s
      (s.setMem (s.mem.putWord a v)).advance := by
  refine setMem_advance_stored (fun k hk => ?_) (fun b hb => ?_)
  · rw [Memory.read_putWord_byte _ a v hk]
    match k, hk with
    | 0, _ | 1, _ | 2, _ | 3, _ => rfl
  · have hfour : b < a ∨ a + 4 ≤ b := hb
    rw [Memory.read_putWord, if_neg (by omega)]

/-- Settles O35, from what the byte write answers inside and outside memory. -/
theorem storeByteLow : Obligations.StoreByteLow := by
  intro rs rt imm s
  rw [exec_sb]
  refine ⟨decode_layoutI (by simp), rfl, fun hin => ?_, fun hout => ?_⟩
  · exact ⟨_, storeResult_of_ok (writeByte_of_inside s.mem _ hin) s, setMem_write_stored _ _ s⟩
  · exact storeResult_of_error (writeByte_of_outside s.mem _ (byteOutside_of_toInt hout)) s

/-- Settles O36, from what the word write answers. -/
theorem storeWordAligned : Obligations.StoreWordAligned := by
  intro rs rt imm s
  rw [exec_sw]
  refine ⟨decode_layoutI (by simp), rfl, fun h4 hle => ?_, fun hmis => ?_, fun h4 hout => ?_⟩
  · exact ⟨_, storeResult_of_ok (writeWord_of_inside s.mem _ h4 (wordInside_of_le hle)) s, setMem_putWord_stored _ _ s⟩
  · exact storeResult_of_error (writeWord_of_misaligned s.mem _ hmis) s
  · exact storeResult_of_error (writeWord_of_outside s.mem _ h4 (wordOutside_of_toInt hout)) s

/-! ### A load after a store (R205) -/

/-- Settles O37: the load reads the memory the store left, at the address the store wrote. -/
theorem storeThenLoadRoundTrip : Obligations.StoreThenLoadRoundTrip := by
  intro rt rs rd rb imm disp s
  refine ⟨fun h4 hle => ?_, fun hin => ?_⟩
  · refine ⟨_, exec_sw_of_inside h4 (wordInside_of_le hle), fun haddr => ?_⟩
    rw [← haddr] at h4 hle
    have hload := exec_lw_of_inside rd h4 (wordInside_of_le hle)
    rwa [haddr, State.advance_mem, State.setMem_mem, Memory.wordAt_putWord_same] at hload
  · refine ⟨_, exec_sb_of_inside rt hin, fun haddr => ?_⟩
    rw [← haddr] at hin
    have hload := exec_lbu_of_inside rd hin
    rwa [haddr, State.advance_mem, State.setMem_mem, Memory.read_write_same] at hload

end Sys2Proof.Machine
end

section
/-!
PROOFS. The statements of 45_syscall.md: the encoding of the six services, what each does with the host's answer, and
the core that waits for an answer for ever.
-/

namespace Sys2Proof.Machine

/-! ### The decoder on a SyscallOp word (R95, R106) -/

theorem layoutS_eq_wordS (code : BitVec 20) : layoutS code = wordS opcodeMap code := rfl

@[simp] theorem syscallTable_opcodeMap :
    syscallTable opcodeMap = [(4, .pstr), (10, .exit), (11, .pch), (12, .rch), (2046, .stra), (2047, .notr)] := rfl

/-- A SyscallOp word decodes to what the syscall table lists for its code. -/
theorem decode_layoutS {code : BitVec 20} {i : Instr} (hi : (code, i) ∈ syscallTable opcodeMap) :
    decode (layoutS code) = .ok i := by
  refine (decodeWith_eq_ok_iff opcodeMap_distinct _ i).mpr (.inl ⟨?_, ?_, ?_⟩)
  · rw [layoutS_eq_wordS, fieldOp_wordS]
  · rw [layoutS_eq_wordS, fieldFunct_wordS]
  · rwa [layoutS_eq_wordS, fieldCode_wordS]

/-! ### Writing to the host (R218, R219, R223) -/

/-- A write service makes its one request, and x[2] takes what the host's answer to it gives. -/
theorem ioResult_hostWrite_spec (s : State) (q : WriteRequest) (onSuccess : Word) :
    DidIo (.wrote q (Config.hostWrite (ioHistory s.events) q)) (hostWrite s q onSuccess).2 s
      (ioResult (hostWrite s q onSuccess)).advance :=
  ioResult_spec _ _ s

theorem exec_pstr (s : State) :
    exec .pstr s = .next (commit s ((scanString stringFuel s.mem (s.reg 4)).map fun bytes =>
      ioResult (hostWrite s (.writeBytes bytes) (BitVec.ofNat 32 bytes.length)))) := rfl

theorem exec_pstr_of_ok {s : State} {bytes : List Byte} (h : scanString stringFuel s.mem (s.reg 4) = .ok bytes) :
    exec .pstr s = .next (ioResult (hostWrite s (.writeBytes bytes) (BitVec.ofNat 32 bytes.length))).advance := by
  rw [exec_pstr, h]
  rfl

/-- A scan that faults ends the pstr before its request (R218). -/
theorem exec_pstr_of_error {s : State} {c : FaultCause} (h : scanString stringFuel s.mem (s.reg 4) = .error c) :
    ∃ t, exec .pstr s = .next t ∧ TookFault c s t :=
  ⟨raise c s, by rw [exec_pstr, h]; rfl, raise_spec c s⟩

/-- A string inside memory is shorter than the number of reads the scan has. -/
theorem StringAt.length_lt_stringFuel {m : Memory} {a : Nat} {bytes : List Byte} (h : StringAt m a bytes) :
    bytes.length < stringFuel := by
  have hin := h.inside
  rw [stringFuel]
  omega

/-- Settles O41, from what the scan answers for a string in memory, for one that runs off it, and outside it. -/
theorem printString : Obligations.PrintString := by
  refine ⟨decode_layoutS (by simp), fun s =>
    ⟨fun bytes hstr => ?string, fun hin hnz => ?runsOff, fun hout => ?outside⟩⟩
  case string =>
    have hscan := scanString_of_stringAt bytes stringFuel s.mem (s.reg 4) hstr.length_lt_stringFuel hstr
    exact ⟨_, exec_pstr_of_ok hscan, ioResult_hostWrite_spec s _ _⟩
  case runsOff =>
    have hfuel : memBytes < stringFuel + (s.reg 4).toNat := by rw [stringFuel]; omega
    exact exec_pstr_of_error (scanString_runs_off stringFuel s.mem (s.reg 4) hfuel hin.le hnz)
  case outside => exact exec_pstr_of_error (scanString_outside stringFuel s.mem (s.reg 4) hout)

theorem exec_pch (s : State) :
    exec .pch s =
      .next (ioResult (hostWrite s (.writeByte (lowByte (s.reg 4))) (zext8 (lowByte (s.reg 4))))).advance := rfl

/-- Settles O42: the one request is of the low byte of x[4]. -/
theorem printChar : Obligations.PrintChar := by
  refine ⟨decode_layoutS (by simp), fun s => ⟨_, exec_pch s, ?_⟩⟩
  rw [← zext8_eq]
  exact ioResult_hostWrite_spec s _ _

/-! ### Reading from the host (R220, R223) -/

theorem exec_rch {s : State} {reply : Option ReadReply} (h : hostRead s = reply) :
    exec .rch s = .next (finishRead reply s) := by
  rw [← h]
  rfl

theorem readValue_byte (b : Byte) : readValue (.byte b) = 0#24 ++ b := zext8_eq b

theorem readValue_endOfInput : readValue .endOfInput = 0xFFFFFFFF := rfl

/-- Settles O43, answer by answer: `finishRead_spec` says what each leaves. -/
theorem readChar : Obligations.ReadChar := by
  refine ⟨decode_layoutS (by simp), fun s => ?_⟩
  cases hreply : Config.hostRead (ioHistory s.events) with
  | none => exact ⟨_, exec_rch hreply, finishRead_spec none s⟩
  | some reply =>
    have hdid : DidIo (.read reply) (readValue reply) s (finishRead (some reply) s) := finishRead_spec (some reply) s
    refine ⟨_, exec_rch hreply, ?_⟩
    cases reply with
    | byte b => rwa [readValue_byte] at hdid
    | endOfInput => rwa [readValue_endOfInput] at hdid

/-! ### A core blocked in its read (R220, I16) -/

/-- A state that steps to itself is where a run from it stays. -/
theorem run_of_step_self (M : Host.Core) {s : M.State} (h : M.step s = .next s) (n : Nat) : M.run n s = .next s := by
  induction n with
  | zero => rfl
  | succ n ih => exact (run_succ_eq_next_iff M n s s).mpr ⟨s, h, ih⟩

/-- Settles O7: a blocked core steps to itself. -/
theorem blockedCoreMakesNoProgress : Obligations.BlockedCoreMakesNoProgress :=
  fun n _ hr hb => run_of_step_self core (step_blocked hr hb) n

/-! ### exit, stra and notr (R216, R221, R222, R250) -/

/-- A state whose run has ended has no step (R120). -/
theorem step_of_terminal {s : State} (h : s.status.terminal = true) : step s = .fault .runEnded :=
  (step_eq_fault_iff s .runEnded).mpr ((noStep_eq_runEnded_iff s.status).mpr h)

/-- Settles O40: exit ends the run in the terminal status Halted. -/
theorem exitHalts : Obligations.ExitHalts :=
  ⟨decode_layoutS (by simp), (exitStatus_eq_zero_iff .halted).mpr rfl,
    fun s => ⟨halt s, rfl, halt_spec s, step_of_terminal (s := halt s) rfl⟩⟩

/-- A switch sets the trace flag and falls through. -/
theorem setTrace_advance_spec (b : Bool) (s : State) :
    (s.setTrace b).advance.trace = b ∧ (s.setTrace b).advance.pc = s.pc + 4 ∧ SameRegs s (s.setTrace b).advance ∧
      SameHiLo s (s.setTrace b).advance ∧ SameMemory s (s.setTrace b).advance ∧
      (s.setTrace b).advance.status = s.status ∧ (s.setTrace b).advance.blocked = s.blocked ∧
      (s.setTrace b).advance.events = s.events :=
  ⟨rfl, rfl, fun _ => rfl, ⟨rfl, rfl⟩, fun _ => rfl, rfl, rfl, rfl⟩

/-- Settles O44: the two switches are one, with the flag on or off. -/
theorem traceSwitches : Obligations.TraceSwitches :=
  ⟨decode_layoutS (by simp), decode_layoutS (by simp),
    fun s => ⟨⟨_, rfl, setTrace_advance_spec true s⟩, ⟨_, rfl, setTrace_advance_spec false s⟩⟩⟩

end Sys2Proof.Machine
end

section
/-!
PROOFS. The statements of 60_exceptions.md: every instruction has a next state, a fault commits nothing, and the
load-time checks.
-/

namespace Sys2Proof.Machine

/-- Settles O12: each way an instruction ends is a next state. -/
theorem everyInstructionIsExecutable : Obligations.EveryInstructionIsExecutable := fun i s =>
  let ⟨t, ht, _⟩ := exec_cases i s
  ⟨t, ht⟩

/-! ### Faults (R241) -/

/-- The switches of the trace flag leave the status as it is: an instruction that changes the status keeps the flag. -/
theorem ExecCase.trace_eq_of_status_ne {i : Instr} {s t : State} (h : ExecCase i s t) (hne : t.status ≠ s.status) :
    t.trace = s.trace := by
  cases h with
  | switched b _ => exact absurd rfl hne
  | _ => rfl

/-- A step after which the machine no longer runs has not switched the trace flag. -/
theorem step_trace_of_not_running {s t : State} (hstep : step s = .next t) (ht : t.status ≠ .running) :
    t.trace = s.trace := by
  obtain ⟨hr, ⟨_, rfl⟩ | ⟨_, ⟨c, _, rfl⟩ | ⟨w, k, _, _, rfl⟩ | ⟨w, i, _, _, hx⟩⟩⟩ := step_cases hstep
  · rfl
  · exact (raise_spec c s).trace
  · exact (raise_spec _ _).trace.trans (traceStep_trace w s)
  · have hne : t.status ≠ (traceStep w s).status := by rwa [traceStep_status, hr]
    exact ((execCase_of_next hx).trace_eq_of_status_ne hne).trans (traceStep_trace w s)

/-- Settles O13: the fault was taken from a state that differs from the one before the step in its trace event only. -/
theorem faultCommitsNothing : Obligations.FaultCommitsNothing := by
  intro s t record _ hstep ht
  have htrace : t.trace = s.trace := step_trace_of_not_running hstep (by simp [ht])
  have hlast : step t = .fault .runEnded := step_of_terminal (by rw [ht]; rfl)
  obtain ⟨c, u, h, rfl⟩ := step_faulted hstep ht
  cases ht
  exact ⟨h.pc, h.fetchedWord_eq, h.pc, h.reg_eq, ⟨h.hi, h.lo⟩, fun a => congrArg (·.read a) h.mem, htrace, h.io, hlast⟩

/-! ### The load-time checks (R255, R272) -/

theorem boot_status_eq_loadFailed_iff (im : Image) (e : LoadError) :
    (boot im).status = .loadFailed e ↔ validate im.header = some e := by
  obtain ⟨e', hv, hb⟩ | ⟨hv, hb⟩ := boot_cases im <;> simp [hv, hb, (endRun_spec _ _).status]

theorem boot_status_eq_running_iff (im : Image) : (boot im).status = .running ↔ validate im.header = none := by
  obtain ⟨e', hv, hb⟩ | ⟨hv, hb⟩ := boot_cases im <;> simp [hv, hb, (endRun_spec _ _).status]

/-- R63 for a word, as R272 writes it, read on the unsigned address. -/
theorem toInt_wordInside_iff (a : Word) : 0 ≤ a.toInt ∧ a.toInt + 4 ≤ 65532 ↔ a.toNat + 4 ≤ memBytes :=
  decide_eq_true_iff.symm.trans (inRange_iff a 4 (by decide))

/-- The closed form of L7 is what R272 states of each word's address: if the segment does not fit, its first word past
the end of memory comes before any address wraps round (log entry 16). -/
theorem segmentFits_wordCount_iff (start len : Word) :
    segmentFits start (wordCount len) = true ↔ ∀ i < len.toNat / 4,
      0 ≤ (start + BitVec.ofNat 32 (4 * i)).toInt ∧ (start + BitVec.ofNat 32 (4 * i)).toInt + 4 ≤ 65532 := by
  simp only [segmentFits_iff, toInt_wordInside_iff, BitVec.toNat_add, BitVec.toNat_ofNat, wordCount, wordBytes, memBytes]
  constructor
  · intro hfit i hi
    omega
  · intro h
    by_contra! hout
    have hfirst := h 0 (by omega)
    have hpast := h ((65532 - start.toNat) / 4) (by omega)
    omega

/-- Settles O53: `validate` makes the checks in the order of R272, each of them read as R272 states it. By `ite_eq_iff`,
a check that fails decides, and one that holds leaves it to those after it. -/
theorem loadTimeValidation : Obligations.LoadTimeValidation := by
  intro im
  simp only [boot_status_eq_loadFailed_iff, boot_status_eq_running_iff, validate, ← Int.not_le, ← aligned_iff,
    ← segmentFits_wordCount_iff]
  simp [ite_eq_iff]

end Sys2Proof.Machine
end

section
/-!
PROOFS. The statements of 70_reset_and_hazards.md: what the reset procedure leaves, and the run through zero-filled
memory to its end.
-/

namespace Sys2Proof.Machine

/-! ### How the reset procedure ends (R270, R272, R275) -/

theorem boot_of_validate_some {im : Image} {e : LoadError} (hv : validate im.header = some e) :
    boot im = endRun (.loadFailed e) (seedRegisters im.header powerOn) := by
  simp only [boot, finishReset, hv]

theorem boot_of_validate_none {im : Image} (hv : validate im.header = none) :
    boot im = (((seedRegisters im.header powerOn).setMem (initialMemory im)).setTrace false).setStatus .running := by
  simp only [boot, finishReset, hv]

theorem boot_mem {im : Image} (hv : validate im.header = none) : (boot im).mem = initialMemory im := by
  rw [boot_of_validate_none hv]
  rfl

/-- Settles O56: the report of the failure is the only interaction, and LoadFailed is terminal. -/
theorem failedLoadRunsNothing : Obligations.FailedLoadRunsNothing := by
  intro im e hv
  have hb := boot_of_validate_some hv
  have hstatus : (boot im).status = .loadFailed e := (boot_status_eq_loadFailed_iff im e).mpr hv
  refine ⟨hstatus, ?_, step_of_terminal (by rw [hstatus]; rfl), ?_⟩
  · rw [hb]
    exact (endRun_spec _ _).event
  · rw [hstatus]
    exact ⟨_, rfl, Nat.succ_ne_zero _⟩

/-! ### Registers (R274) -/

theorem powerOn_reg (r : RegIndex) : powerOn.reg r = 0 := Vector.getElem_replicate _

theorem seedRegisters_reg (h : Header) (s : State) (r : RegIndex) :
    (seedRegisters h s).reg r =
      if r = 28 then h.dataStart else if r = 29 ∨ r = 30 then h.stackBottom else s.reg r := by
  simp only [seedRegisters, State.setStatus_reg, State.reg_setReg, State.setPc_reg, regGP, regSP, regFP]
  by_cases h28 : r = 28
  · subst h28
    rfl
  · simp only [if_neg h28, ite_or]

/-- Settles O54: the registers are seeded before the checks, and what follows them leaves the registers alone. -/
theorem registersAfterReset : Obligations.RegistersAfterReset := by
  intro im hv
  rw [boot_of_validate_none hv]
  exact ⟨rfl, fun r => (seedRegisters_reg im.header powerOn r).trans (by rw [powerOn_reg]), rfl, rfl, rfl, rfl⟩

/-! ### The invariant -/

/-- Storing no more words than fit keeps the canonical form; where none is stored the start may lie anywhere. -/
theorem wf_storeWords_take {m : Memory} {start : Word} {n : Nat} (hm : m.wf) (hfit : segmentFits start n = true)
    (vs : List Word) : (storeWords m start.toNat (vs.take n)).wf := by
  obtain rfl | hle := (segmentFits_iff start n).mp hfit
  · exact hm
  · have hlen := List.length_take_le n vs
    exact wf_storeWords _ _ _ hm (by omega)

theorem wf_initialMemory {im : Image} (hv : validate im.header = none) : (initialMemory im).wf :=
  let ⟨htext, hdata⟩ := segments_fit hv
  wf_storeWords_take (wf_storeWords_take Memory.wf_nil htext im.text) hdata im.data

/-- Settles O16: a failed load has stored nothing and reported its end; one that passes has stored both segments inside
memory and reported nothing. -/
theorem bootMeetsTheInvariant : Obligations.BootMeetsTheInvariant := by
  intro im
  obtain ⟨e, _, hb⟩ | ⟨hv, hb⟩ := boot_cases im <;> rw [hb]
  · exact ⟨⟨Memory.wf_nil, endReported_endRun rfl rfl, nofun, nofun⟩, rfl⟩
  · exact ⟨⟨wf_initialMemory hv, (endReported_of_running rfl).mpr rfl, nofun, nofun⟩, rfl⟩

/-! ### Memory (R273) -/

/-- Storing words leaves every word outside them as it was. -/
theorem wordAt_storeWords_outside (vs : List Word) (m : Memory) {a c : Nat} (h : c + 4 ≤ a ∨ a + 4 * vs.length ≤ c) :
    (storeWords m a vs).wordAt c = m.wordAt c :=
  Memory.wordAt_congr fun _ _ => read_storeWords_outside vs m a _ (by omega)

/-- When the loader delivers as many words as the header says, all of them are stored. -/
theorem initialMemory_of_lengths {im : Image} (ht : im.text.length = im.header.textLen.toNat / 4)
    (hd : im.data.length = im.header.dataLen.toNat / 4) :
    initialMemory im =
      storeWords (storeWords [] im.header.textStart.toNat im.text) im.header.dataStart.toNat im.data := by
  simp only [initialMemory, wordCount, wordBytes, ← ht, ← hd, List.take_length]

/-- A header that passes has both segments start on a word (L1, L3). -/
theorem starts_aligned {im : Image} (hv : validate im.header = none) :
    im.header.textStart.toNat % 4 = 0 ∧ im.header.dataStart.toNat % 4 = 0 := by
  obtain ⟨-, -, -, -, -, -, -, hrunning⟩ := loadTimeValidation im
  obtain ⟨htext, -, hdata, -⟩ := hrunning.mp ((boot_status_eq_running_iff im).mpr hv)
  exact ⟨htext, hdata⟩

/-- The fetch and the word read of a segment's word i, by what memory holds there. -/
theorem access_segmentWord {m : Memory} {start v : Word} {n i : Nat} (h4 : start.toNat % 4 = 0)
    (hfit : segmentFits start n = true) (hi : i < n) (hw : m.wordAt (start.toNat + 4 * i) = v) :
    fetchWord m (start + BitVec.ofNat 32 (4 * i)) = .ok v ∧ readWord m (start + BitVec.ofNat 32 (4 * i)) = .ok v := by
  have hbytes : memBytes < 2 ^ 32 := by decide
  have hin : start.toNat + 4 * n ≤ memBytes := ((segmentFits_iff start n).mp hfit).resolve_left (by omega)
  have ha : (start + BitVec.ofNat 32 (4 * i)).toNat = start.toNat + 4 * i := by
    rw [BitVec.toNat_add, BitVec.toNat_ofNat]
    omega
  rw [fetchWord_of_inside m (by omega) (by omega), readWord_of_inside m (by omega) (by omega), ha, hw]
  exact ⟨rfl, rfl⟩

/-- Settles O55: the data words are stored last, so they stand as loaded; elsewhere the text words do, over zeros. -/
theorem memoryAfterReset : Obligations.MemoryAfterReset := by
  intro im hv ht hd
  obtain ⟨htext4, hdata4⟩ := starts_aligned hv
  obtain ⟨htext, hdata⟩ := segments_fit hv
  rw [boot_mem hv, initialMemory_of_lengths ht hd]
  refine ⟨fun i hi => ?_, fun i hi hout => ?_, fun a hoffText hoffData => ?_⟩
  · exact access_segmentWord hdata4 hdata (hi.trans_eq hd) (wordAt_storeWords _ _ _ _ hi)
  · refine access_segmentWord htext4 htext (hi.trans_eq ht) ?_
    rw [wordAt_storeWords_outside _ _ hout, wordAt_storeWords _ _ _ _ hi]
  · rw [read_storeWords_outside _ _ _ _ hoffData, read_storeWords_outside _ _ _ _ hoffText]
    rfl

/-! ### Lists of trace events -/

theorem ioHistory_map_trace (l : List Snapshot) : ioHistory (l.map .trace) = [] := by
  induction l with
  | nil => rfl
  | cons _ _ ih => exact ih

theorem noEnd_map_trace (l : List Snapshot) : noEnd (l.map .trace) = true := by
  induction l with
  | nil => rfl
  | cons _ _ ih => exact ih

theorem traceHistory_map_trace (l : List Snapshot) : traceHistory (l.map .trace) = l := by
  induction l with
  | nil => rfl
  | cons snapshot _ ih => exact congrArg (snapshot :: ·) ih

/-! ### A run through zero-filled memory (R109, R278) -/

theorem Memory.wordAt_eq_zero {m : Memory} {a : Nat} (h : ∀ k < 4, m.read (a + k) = 0) : m.wordAt a = 0 := by
  rw [Memory.wordAt_congr (n := []) h]
  simp only [Memory.wordAt, Memory.read_nil]
  decide

/-- The state with the PC moved and these trace events emitted, newest first, and nothing else changed. -/
def State.movedTracing (s : State) (a : Word) (snapshots : List Snapshot) : State :=
  { s with pc := a, events := snapshots.map .trace ++ s.events }

theorem State.movedTracing_movedTracing (s : State) (a a' : Word) (l l' : List Snapshot) :
    (s.movedTracing a l).movedTracing a' l' = s.movedTracing a' (l' ++ l) := by
  simp only [State.movedTracing, List.map_append, List.append_assoc]

/-- The trace events of a step over a zero word: one if tracing is on (R122). -/
def State.zeroWordTrace (s : State) : List Snapshot := if s.trace then [s.snapshot 0] else []

/-- The step over a zero word moves the PC on and emits its trace event. -/
theorem step_of_zeroWord {s : State} (hr : s.status = .running) (hb : s.blocked = false) (h4 : s.pc.toNat % 4 = 0)
    (hin : s.pc.toNat + 4 ≤ memBytes) (hz : ∀ k < 4, s.mem.read (s.pc.toNat + k) = 0) :
    step s = .next (s.movedTracing (s.pc + 4) s.zeroWordTrace) := by
  obtain ⟨hdecode, hexec⟩ := zeroWordIsANoOp
  have hf : fetchWord s.mem s.pc = .ok 0 := by rw [fetchWord_of_inside s.mem h4 hin, Memory.wordAt_eq_zero hz]
  rw [step_of_decode_ok hr hb hf hdecode, hexec, traceStep_eq, State.movedTracing, State.zeroWordTrace]
  cases s.trace <;> rfl

/-- n steps through zero-filled memory end at 65532, n words further on, with one trace event a step if tracing is on. -/
theorem run_zeroFilled (n : Nat) {s : State} (hr : s.status = .running) (hb : s.blocked = false)
    (hpc : s.pc.toNat + 4 * n = 65532) (hz : ∀ a, s.pc.toNat ≤ a → s.mem.read a = 0) :
    ∃ snapshots : List Snapshot, snapshots.length = (if s.trace then n else 0) ∧
      core.run n s = .next (s.movedTracing 65532 snapshots) := by
  induction n generalizing s with
  | zero =>
    have hend : s.pc = 65532 := BitVec.eq_of_toNat_eq hpc
    exact ⟨[], by simp, by rw [← hend]; rfl⟩
  | succ n ih =>
    have hin : s.pc.toNat + 4 ≤ memBytes := by simp only [memBytes]; omega
    have hnext : (s.pc + 4).toNat = s.pc.toNat + 4 := toNat_add_of_wordInside hin le_rfl
    have hstep := step_of_zeroWord hr hb (by omega) hin fun k _ => hz _ (Nat.le_add_right _ k)
    obtain ⟨snapshots, hlen, hrun⟩ := ih (s := s.movedTracing (s.pc + 4) s.zeroWordTrace) hr hb
      (show (s.pc + 4).toNat + 4 * n = 65532 by omega)
      (fun a (ha : (s.pc + 4).toNat ≤ a) => hz a (by omega))
    rw [State.movedTracing_movedTracing] at hrun
    refine ⟨snapshots ++ s.zeroWordTrace, ?_, (run_succ_eq_next_iff core n _ _).mpr ⟨_, hstep, hrun⟩⟩
    rw [List.length_append, hlen, State.zeroWordTrace, State.movedTracing]
    cases s.trace <;> rfl

/-- Settles O52: one step for each word left, and the fetch at 65532 faults. -/
theorem runningOffTheEnd : Obligations.RunningOffTheEnd := by
  intro s hr hb h4 hle hz
  obtain ⟨snapshots, hlen, hrun⟩ := run_zeroFilled ((65532 - s.pc.toNat) / 4) hr hb (by omega) hz
  obtain ⟨u, hu, hended⟩ := step_of_fetch_error
    (s := s.movedTracing 65532 snapshots) hr hb
    (fetchWord_of_outside (a := 65532) s.mem (by decide) (by decide))
  refine ⟨_, u, snapshots.map .trace, hrun, rfl, ioHistory_map_trace _, noEnd_map_trace _, ?_, hu, hended⟩
  rw [traceHistory_map_trace, hlen]

end Sys2Proof.Machine
end

section
/-!
PROOFS. The state after reset that the model chooses (log entry 7): it is where the reset procedure ends for the bare
image, so what holds of every image's boot holds of it.
-/

namespace Sys2Proof.Machine

/-- The default header passes the checks L1 to L7 (R272). -/
theorem validate_bareImage : validate bareImage.header = none := by decide

/-- Settles O57: the header passes, so the seeded state is set running; it writes x[30] before x[29], which makes no
difference, and stores no word. -/
theorem resetIsTheBareBoot : Obligations.ResetIsTheBareBoot :=
  (boot_of_validate_none validate_bareImage).symm

/-- Settles O15: an instance of what holds of every image's boot (O16). -/
theorem resetMeetsTheInvariant : Obligations.ResetMeetsTheInvariant := by
  unfold Obligations.ResetMeetsTheInvariant
  rw [resetIsTheBareBoot]
  exact (bootMeetsTheInvariant bareImage).1

end Sys2Proof.Machine
end
